-- ==== Sys2Proof/Word.lean ====
section
/-! DEFINITION. The word types of the block: the byte of a buffer, the 32-bit register value, the 5-bit word of a
WordArray, the 30-bit checksum register, the offset in the 4096-byte window. 00_scope.md R13, R50. -/

namespace Sys2Proof

/-- One byte of a buffer (R13, R53). -/
abbrev Byte := BitVec 8

/-- A register value as the host reads or writes it (R23, R55). -/
abbrev Word := BitVec 32

/-- An element of a WordArray, 0..31 (R13, R17). -/
abbrev Word5 := BitVec 5

/-- The polymod checksum register: 30 bits (R110; 90_conflicts.md C1). -/
abbrev Checksum := BitVec 30

/-- A byte offset 0..4095 in the block's window (R50). -/
abbrev Offset := BitVec 12

end Sys2Proof
end

