-- ==== Sys2Proof/Syntax.lean ====
section
/-! DEFINITION. The command set: one constructor for each row of spec/opcode_table.json (30_encoding.md R71). -/

namespace Sys2Proof

/-- The nine commands of R71 with the operands their command words carry (R72). -/
inductive Instr where
  /-- B32_ENC, R115: bech32 encode; `hrplen` leading bytes of the input hold the HRP. -/
  | b32Enc (hrplen : BitVec 8)
  /-- B32_DEC, R119: bech32 decode. -/
  | b32Dec
  /-- B32_POLYMOD, R124: the checksum's polymod. -/
  | b32Polymod
  /-- B32_HRPEXP, R127: the checksum's HRP expansion. -/
  | b32Hrpexp
  /-- TO_WORDS, R151: 8-to-5 regrouping. -/
  | toWords
  /-- FROM_WORDS, R155: 5-to-8 regrouping; `strict` is the flag S (R156). -/
  | fromWords (strict : Bool)
  /-- B58_ENC, R178: base-58 encode. -/
  | b58Enc
  /-- B58_DEC, R181: base-58 decode. -/
  | b58Dec
  /-- B58CHK_ENC, R185: Base58Check encode with the version byte `version`. -/
  | b58chkEnc (version : BitVec 8)
  deriving DecidableEq, Repr

end Sys2Proof
end

