-- ==== Sys2Proof/WellFormed.lean ====
section
/-! DEFINITION. Which command words are legal (30_encoding.md R74), as a check on the four fields of the word (R70).
Instr itself has no ill-formed term: HRPLEN and VERSION may be any 8-bit value and S any bit (R74), and its types hold
exactly those. So the check stands on the raw fields. -/

namespace Sys2Proof

/-- The four fields of the command word (R70). -/
structure CommandFields where
  op  : BitVec 8
  arg : BitVec 8
  s   : BitVec 1
  rsv : BitVec 15
  deriving DecidableEq, Repr

/-- R74: OP is one of the nine values of R71. -/
def CommandFields.opAssigned (f : CommandFields) : Bool :=
  [0x01#8, 0x02#8, 0x03#8, 0x04#8, 0x10#8, 0x11#8, 0x20#8, 0x21#8, 0x22#8].contains f.op

/-- R74: RSV = 0. -/
def CommandFields.rsvZero (f : CommandFields) : Bool := f.rsv == 0#15

/-- R74: S = 0 unless OP = 0x11. -/
def CommandFields.strictOnlyOnFromWords (f : CommandFields) : Bool := f.s == 0#1 || f.op == 0x11#8

/-- R74: ARG = 0 unless OP is 0x01 or 0x22. -/
def CommandFields.argOnlyWhereUsed (f : CommandFields) : Bool :=
  f.arg == 0#8 || f.op == 0x01#8 || f.op == 0x22#8

/-- R74: `legal(op, arg, s, rsv)`. -/
def CommandFields.legal (f : CommandFields) : Bool :=
  f.opAssigned && f.rsvZero && f.strictOnlyOnFromWords && f.argOnlyWhereUsed

end Sys2Proof
end

