-- ==== Sys2Proof/Decode.lean ====
section
/-! DEFINITION. The decoder, as R77 words it (a word selects the row whose mask and match it meets), and the encoder,
from the table of R79. A word no row matches is refused here and ends as a command with BAD_CMD (R75) in
Machine/Port.lean. -/

namespace Sys2Proof

/-- The fields of a command word (R70). -/
def commandFields (w : Word) : CommandFields where
  op  := w.extractLsb' 0 8
  arg := w.extractLsb' 8 8
  s   := w.extractLsb' 16 1
  rsv := w.extractLsb' 17 15

/-- A row of spec/opcode_table.json: its mask, its match and the command its words stand for. -/
structure OpRow where
  mask     : Word
  expected : Word
  build    : CommandFields → Instr

/-- R77: the word selects the row. -/
def OpRow.selects (r : OpRow) (w : Word) : Bool := w &&& r.mask == r.expected

/-- The nine rows of spec/opcode_table.json, in its order. -/
def opRows : List OpRow :=
  [ ⟨0xFFFF00FF#32, 0x00000001#32, fun f => .b32Enc f.arg⟩,
    ⟨0xFFFFFFFF#32, 0x00000002#32, fun _ => .b32Dec⟩,
    ⟨0xFFFFFFFF#32, 0x00000003#32, fun _ => .b32Polymod⟩,
    ⟨0xFFFFFFFF#32, 0x00000004#32, fun _ => .b32Hrpexp⟩,
    ⟨0xFFFFFFFF#32, 0x00000010#32, fun _ => .toWords⟩,
    ⟨0xFFFEFFFF#32, 0x00000011#32, fun f => .fromWords (f.s == 1#1)⟩,
    ⟨0xFFFFFFFF#32, 0x00000020#32, fun _ => .b58Enc⟩,
    ⟨0xFFFFFFFF#32, 0x00000021#32, fun _ => .b58Dec⟩,
    ⟨0xFFFF00FF#32, 0x00000022#32, fun f => .b58chkEnc f.arg⟩ ]

/-- R77: decoding is total; `none` is BAD_CMD (R75). -/
def decode (w : Word) : Option Instr :=
  (opRows.find? (fun r => r.selects w)).map (fun r => r.build (commandFields w))

/-- A command word with the OP `op` and the ARG `arg` (R79: `0x00000001 | (h << 8)`). -/
def wordWithArg (op : Word) (arg : BitVec 8) : Word := op ||| (arg.setWidth 32 <<< 8)

/-- R79: the command word of each command. -/
def encode : Instr → Word
  | .b32Enc h        => wordWithArg 0x00000001#32 h
  | .b32Dec          => 0x00000002#32
  | .b32Polymod      => 0x00000003#32
  | .b32Hrpexp       => 0x00000004#32
  | .toWords         => 0x00000010#32
  | .fromWords false => 0x00000011#32
  | .fromWords true  => 0x00010011#32
  | .b58Enc          => 0x00000020#32
  | .b58Dec          => 0x00000021#32
  | .b58chkEnc v     => wordWithArg 0x00000022#32 v

/-- The 32-bit command word whose low `nbits` bits are `w`'s and whose other bits are 0. -/
def tableWord (nbits w : Nat) : Word := BitVec.ofNat 32 (w % 2 ^ nbits)

/-- The command the decoder reads from a word numbered as spec/opcode_table.json numbers it. -/
def decodeTableWord (nbits w : Nat) : Option Instr := decode (tableWord nbits w)

end Sys2Proof
end

