-- ==== Sys2Proof/Config.lean ====
section
/-! DEFINITION. What is fixed for a given block and is not state (10_state.md R22): the sizes, the identity string,
and the three values the spec leaves open (BASE, SHA256, the unwritten bytes), which are constants without a body. -/

namespace Sys2Proof

/-- R8: the number of bytes of IN. -/
abbrev Config.inSize : Nat := 128

/-- R8: the number of bytes of OUT. -/
abbrev Config.outSize : Nat := 256

/-- R9: the maximum total length of a bech32 string. -/
abbrev Config.bech32MaxLen : Nat := 90

/-- R50: the window is 4096 bytes. -/
abbrev Config.windowSize : Nat := 4096

/-- R2: the identity string of the block; no register shows it. -/
def Config.identity : String := "keyvert-codec/1"

/-- R10, U3: the page the platform places the window on, an open parameter (log 7). -/
opaque Config.basePage : Nat

/-- R10: BASE, a multiple of 4096. -/
def Config.base : Nat := Config.windowSize * Config.basePage

/-- R12, U4: SHA256, a total function from bytes to exactly 32 bytes, an open parameter: nothing is known of it but
that it is a function (log 6). -/
opaque Config.sha256 : List Byte → Vector Byte 32

/-- U1, U2, R30 to R32 of the buffers: the FREE VALUE of the buffer byte at a window offset that nothing has written
since the `epoch`-th reset. One draw for each reset and byte; nothing is known of it (logs 4 and 5). -/
opaque Config.unwrittenByte : (epoch : Nat) → (offset : Nat) → Byte

end Sys2Proof
end

