-- ==== Sys2Proof/Machine/State.lean ====
section
/-! DEFINITION. The state of the block (10_state.md R22), what arrives at its port (20_memory.md R50), how the port
answers, and the state after reset (R35). -/

namespace Sys2Proof.Machine

/-- The six registers of R23. -/
inductive Reg where
  | cmd | inlen | status | errcode | outlen | result
  deriving DecidableEq, Repr

/-- An access of the host at the port (R50): `MemRead(off, n)` and `MemWrite(off, n, v)`. A write of n bytes carries
the low n bytes of `value` (log 8). -/
inductive Access where
  | read  (off : Offset) (width : Nat)
  | write (off : Offset) (width : Nat) (value : Word)
  deriving DecidableEq, Repr

/-- What can reach the block: an access (R50) or a reset, which takes effect between two accesses (R230). -/
inductive Input where
  | access (a : Access)
  | reset
  deriving DecidableEq, Repr

/-- What the port answered to the access it served last (R50; log 3). -/
inductive Response where
  /-- No access has been served since reset. -/
  | none
  /-- `ok`, a write. -/
  | written
  /-- `ok`, a 1-byte read with its value. -/
  | byte (value : Byte)
  /-- `ok`, a 4-byte read with its value. -/
  | word (value : Word)
  /-- `bus_error` (R52). -/
  | busError
  deriving DecidableEq, Repr

/-- Why a step stops. -/
inductive Fault where
  /-- R52: the access is none of R51's. Raised by the port (Machine/Port.lean) for a host access of a wrong width, offset,
  alignment or direction. It changes no state of the block (R208). Safe: the model stops where the platform may let
  the host go on; `State.afterBusError` is the state it would go on from (log 1). -/
  | busError (a : Access)
  deriving DecidableEq, Repr

/-- Why an instruction has no meaning. -/
inductive Refusal where
  /-- The instruction with this mnemonic has no meaning yet. Raised by no arm of this model. Safe. -/
  | notModelled (mnemonic : String)
  deriving DecidableEq, Repr

/-- The bytes written into IN and OUT since reset, by window offset: offsets strictly rising, an offset not listed holds
no written byte (log 8; `Memory.wf`). -/
abbrev Memory := List Host.Cell

/-- The state. The first seven fields are the spec's tuple (R22): registers are held by their implemented bits, the
reserved ones being read as 0 (R25 to R28; log 9), and IN and OUT share `mem`. The last three are the model's own. -/
structure State where
  /-- INLEN.LEN (R25). -/
  inlen    : BitVec 8
  /-- STATUS.DONE (R26). -/
  done     : Bool
  /-- STATUS.ERR (R26). -/
  err      : Bool
  /-- ERRCODE.CODE (R27). -/
  errcode  : BitVec 8
  /-- OUTLEN.LEN (R28). -/
  outlen   : BitVec 9
  /-- RESULT (R29). -/
  result   : Word
  /-- IN (R30) and OUT (R31). -/
  mem      : Memory
  /-- Inputs that have arrived and are not yet served, oldest first (R61; log 2). -/
  pending  : List Input
  /-- The answer to the access served last (R50; log 3). -/
  response : Response
  /-- How many resets have been served: the index of the free draws of IN and OUT (U1; log 4). -/
  resets   : Nat
  deriving DecidableEq, Repr

/-- R35, R230: the state after reset. `mem` lists nothing: every IN byte is a free draw (R30, R232). -/
def State.reset : State where
  inlen    := 0#8
  done     := false
  err      := false
  errcode  := 0x00#8
  outlen   := 0#9
  result   := 0x00000000#32
  mem      := []
  pending  := []
  response := .none
  resets   := 0

end Sys2Proof.Machine
end

