-- ==== Sys2Proof/Machine/Flags.lean ====
section
/-! DEFINITION. The error codes of ERRCODE (60_exceptions.md R200) and the STATUS register's flags (10_state.md R26,
R32). -/

namespace Sys2Proof.Machine

/-- The errors a command can end with (R200). -/
inductive ErrCode where
  | badCmd | length | badChar | mixedCase | noSep | emptyHrp | shortData | tooLong | badDataChar | badChecksum
  | badWord | badPadding | b58BadChar
  deriving DecidableEq, Repr

/-- R200: the code of each error. -/
def ErrCode.code : ErrCode → BitVec 8
  | .badCmd      => 0x01#8
  | .length      => 0x02#8
  | .badChar     => 0x10#8
  | .mixedCase   => 0x11#8
  | .noSep       => 0x12#8
  | .emptyHrp    => 0x13#8
  | .shortData   => 0x14#8
  | .tooLong     => 0x15#8
  | .badDataChar => 0x16#8
  | .badChecksum => 0x17#8
  | .badWord     => 0x18#8
  | .badPadding  => 0x19#8
  | .b58BadChar  => 0x20#8

/-- R200: the code of a successful command. -/
def noErrorCode : BitVec 8 := 0x00#8

/-- R26: the value STATUS reads as: [0] DONE, [1] ERR, [31:2] zero. -/
def statusWord (done err : Bool) : Word :=
  (BitVec.ofBool done).setWidth 32 ||| ((BitVec.ofBool err).setWidth 32 <<< 1)

end Sys2Proof.Machine
end

