-- ==== Sys2Proof/Machine/Ops.lean ====
section
/-! DEFINITION. The shared operations: the bytes of IN and OUT, the registers, the completion of a command with success
(30_encoding.md R76) and with an error (60_exceptions.md R203), and reset (70_reset_and_hazards.md R230). The completion
with an error is what this block has in place of an exception: it has no trap and nothing to return from (R207,
R212). -/

namespace Sys2Proof.Machine

/-- The byte written at an offset since reset, if any. -/
def Memory.get : Memory → Nat → Option Byte
  | [], _ => none
  | (b, v) :: m, a => if a = b then some v else Memory.get m a

/-- Write one byte, keeping the offsets strictly rising. -/
def Memory.set : Memory → Nat → Byte → Memory
  | [], a, v => [(a, v)]
  | (b, w) :: m, a, v =>
    if a < b then (a, v) :: (b, w) :: m
    else if a = b then (a, v) :: m
    else (b, w) :: Memory.set m a v

/-- Write consecutive bytes, the first at offset `a`. -/
def Memory.setAll : Memory → Nat → List Byte → Memory
  | m, _, [] => m
  | m, a, v :: vs => Memory.setAll (Memory.set m a v) (a + 1) vs

/-- The canonical form: offsets strictly rising. No entry can equal what an unlisted offset holds, which is no byte. -/
abbrev Memory.wf (m : Memory) : Prop := m.Pairwise (fun c d => c.1 < d.1)

/-- R23: the offset of IN[0]. -/
abbrev inStart : Nat := 0x100

/-- R23: the offset of OUT[0]. -/
abbrev outStart : Nat := 0x200

/-- R23: the offset is one of IN's. -/
def isInOffset (a : Nat) : Bool := inStart ≤ a && a < inStart + Config.inSize

/-- R23: the offset is one of OUT's. -/
def isOutOffset (a : Nat) : Bool := outStart ≤ a && a < outStart + Config.outSize

/-- The byte a buffer holds at a window offset: the byte last written there since reset, else the free draw (R30,
R232, U1; for OUT U2). -/
def bufferByte (s : State) (a : Nat) : Byte := (Memory.get s.mem a).getD (Config.unwrittenByte s.resets a)

/-- IN[i] (R30). -/
def inByte (s : State) (i : Nat) : Byte := bufferByte s (inStart + i)

/-- What a host's read of OUT[i] returns (R31): OUT[i] below OUTLEN, 0x00 from OUTLEN on. -/
def outByte (s : State) (i : Nat) : Byte := if i < s.outlen.toNat then bufferByte s (outStart + i) else 0x00#8

/-- The outcome of a command function (R15, R76). -/
inductive CmdResult where
  | ok (out : List Byte) (result : Word)
  | error (code : ErrCode)
  deriving DecidableEq, Repr

/-- R203: `finish_error(code)`. -/
def finishError (code : ErrCode) (s : State) : State :=
  { s with outlen := 0#9, result := 0x00000000#32, errcode := code.code, done := true, err := true }

/-- R76: the writes of a successful command: OUT[0..len(out)), OUTLEN, RESULT, ERRCODE and STATUS. -/
def finishOk (out : List Byte) (result : Word) (s : State) : State :=
  { s with mem := Memory.setAll s.mem outStart out, outlen := BitVec.ofNat 9 out.length, result := result,
           errcode := noErrorCode, done := true, err := false }

/-- R76: completion of a command whose function answered `r`; an output over OUT_SIZE bytes is LENGTH (R201). -/
def complete (r : CmdResult) (s : State) : State :=
  match r with
  | .error code => finishError code s
  | .ok out result => if Config.outSize < out.length then finishError .length s else finishOk out result s

/-- The input sequence `inb` = IN[0..INLEN) (R73, R76). -/
def input (s : State) : List Byte := (List.range s.inlen.toNat).map (inByte s)

/-- R76, after legality: INLEN over IN_SIZE is LENGTH before the command function runs; else the function's outcome
completes the command. -/
def runCommand (f : List Byte → CmdResult) (s : State) : State :=
  if Config.inSize < s.inlen.toNat then finishError .length s else complete (f (input s)) s

/-- R25: a write of INLEN stores bits [7:0] and ignores the others. -/
def writeInlen (v : Word) (s : State) : State := { s with inlen := v.setWidth 8 }

/-- R30: a write of IN[i] stores the byte. -/
def writeIn (i : Nat) (v : Byte) (s : State) : State := { s with mem := Memory.set s.mem (inStart + i) v }

/-- What a 4-byte read of a register returns, its reserved bits 0 (R25 to R29); CMD cannot be read (R24). -/
def readReg (r : Reg) (s : State) : Option Word :=
  match r with
  | .cmd     => none
  | .inlen   => some (s.inlen.setWidth 32)
  | .status  => some (statusWord s.done s.err)
  | .errcode => some (s.errcode.setWidth 32)
  | .outlen  => some (s.outlen.setWidth 32)
  | .result  => some s.result

/-- The register at a window offset (R23). -/
def regAt (off : Offset) : Option Reg :=
  match off.toNat with
  | 0x000 => some .cmd
  | 0x004 => some .inlen
  | 0x008 => some .status
  | 0x00C => some .errcode
  | 0x010 => some .outlen
  | 0x014 => some .result
  | _     => none

/-- The port takes the oldest input off the queue and will answer `r` (R61; logs 2 and 3). -/
def State.served (s : State) (r : Response) : State := { s with pending := s.pending.tail, response := r }

/-- R52, R208: what stands after the access at the head of the queue has ended in a bus error, where the platform lets
the host go on: nothing of the block has changed (log 1). -/
def State.afterBusError (s : State) : State := s.served .busError

/-- R230: reset, between two accesses. The registers take R35's values, IN is drawn anew (U1), the accesses that arrive
after it stay queued. -/
def applyReset (s : State) : State :=
  { State.reset with pending := s.pending.tail, resets := s.resets + 1 }

/-- R10, R50: the offset in the window of a physical address, if the window holds it. -/
def windowOffset (addr : Nat) : Option Offset :=
  if Config.base ≤ addr ∧ addr < Config.base + Config.windowSize then some (BitVec.ofNat 12 (addr - Config.base))
  else none

end Sys2Proof.Machine
end

