-- ==== Sys2Proof/Machine/Operands.lean ====
section
/-! DEFINITION. The operand forms of 30_encoding.md R73: the input bytes as characters (00_scope.md R16), as a WordArray
(40_bech32.md R106), and as an HRP followed by a WordArray (R115). -/

namespace Sys2Proof.Machine

/-- R16. -/
def isDigit (c : Byte) : Bool := 0x30#8 ≤ c && c ≤ 0x39#8

/-- R16. -/
def isUpper (c : Byte) : Bool := 0x41#8 ≤ c && c ≤ 0x5A#8

/-- R16. -/
def isLower (c : Byte) : Bool := 0x61#8 ≤ c && c ≤ 0x7A#8

/-- R16: the source's `[A-Za-z0-9]`. -/
def isAlnum (c : Byte) : Bool := isDigit c || isUpper c || isLower c

/-- R16. -/
def toLower (c : Byte) : Byte := if isUpper c then c + 0x20#8 else c

/-- R106: a word byte is a WordArray element exactly when its value is 0..31. -/
def isWordByte (b : Byte) : Bool := b ≤ 31#8

/-- R53: a word byte as the word in its bits [4:0]. -/
def wordOfByte (b : Byte) : Word5 := b.setWidth 5

/-- R53: a word as the buffer byte that holds it. -/
def byteOfWord (w : Word5) : Byte := w.setWidth 8

/-- R106: the input bytes as a WordArray; `none` where a byte is no word (BAD_WORD). -/
def asWords (bs : List Byte) : Option (List Word5) :=
  if bs.all isWordByte then some (bs.map wordOfByte) else none

/-- R115: the HRP string of B32_ENC, the first `h` input bytes. -/
def hrpOperand (h : Nat) (inb : List Byte) : List Byte := inb.take h

/-- R115: the word bytes of B32_ENC, after the HRP. -/
def wordsOperand (h : Nat) (inb : List Byte) : List Byte := inb.drop h

end Sys2Proof.Machine
end

