-- ==== Sys2Proof/Machine/Tables.lean ====
section
/-! DEFINITION. The constant tables of the codecs, configuration of the block (10_state.md R22): the bech32 charset
(40_bech32.md R101), the generator (R109) and the base-58 alphabet (42_base58.md R170). The spec takes their values from
general knowledge (G1, G2, G9; log 10). -/

namespace Sys2Proof.Machine

/-- R101: CHARSET, `qpzry9x8gf2tvdw0s3jn54khce6mua7l`. -/
def charset : List Byte :=
  [ 0x71#8, 0x70#8, 0x7A#8, 0x72#8, 0x79#8, 0x39#8, 0x78#8, 0x38#8 ] ++
  [ 0x67#8, 0x66#8, 0x32#8, 0x74#8, 0x76#8, 0x64#8, 0x77#8, 0x30#8 ] ++
  [ 0x73#8, 0x33#8, 0x6A#8, 0x6E#8, 0x35#8, 0x34#8, 0x6B#8, 0x68#8 ] ++
  [ 0x63#8, 0x65#8, 0x36#8, 0x6D#8, 0x75#8, 0x61#8, 0x37#8, 0x6C#8 ]

/-- R101: CHARSET[v]. -/
def charsetChar (v : Word5) : Byte := charset.getD v.toNat 0x00#8

/-- R102: `in_charset(c)`. -/
def inCharset (c : Byte) : Bool := charset.contains c

/-- R102: `charset_index(c)`, for a c in the charset. -/
def charsetIndex (c : Byte) : Word5 := BitVec.ofNat 5 (charset.idxOf c)

/-- R109: GEN[i]. -/
def generator : Nat → Checksum
  | 0 => 0x3B6A57B2#30
  | 1 => 0x26508E6D#30
  | 2 => 0x1EA119FA#30
  | 3 => 0x3D4233DD#30
  | 4 => 0x2A1462B3#30
  | _ => 0#30

/-- The `n` codes from `c` on. -/
def codesFrom (c : Nat) (n : Nat) : List Byte := (List.range n).map (fun k => BitVec.ofNat 8 (c + k))

/-- R170: ALPHABET: digits `1`..`9`, then `A`..`H`, `J`..`N`, `P`..`Z`, `a`..`k`, `m`..`z`. -/
def alphabet : List Byte :=
  codesFrom 0x31 9 ++ codesFrom 0x41 8 ++ codesFrom 0x4A 5 ++ codesFrom 0x50 11 ++ codesFrom 0x61 11 ++
    codesFrom 0x6D 14

/-- R170: ALPHABET[d]. -/
def alphabetChar (d : Nat) : Byte := alphabet.getD d 0x00#8

/-- R171: `in_alphabet(c)`. -/
def inAlphabet (c : Byte) : Bool := alphabet.contains c

/-- R171: `digit(c)`, for a c in the alphabet. -/
def alphabetDigit (c : Byte) : Nat := alphabet.idxOf c

end Sys2Proof.Machine
end

