-- ==== Sys2Proof/Machine/Base58.lean ====
section
/-! DEFINITION. The base-58 family (42_base58.md): numbers as digit lists, the functions of R172 to R176, the three
command functions and their meanings. -/

namespace Sys2Proof.Machine

/-- The natural number that digits in a base denote, most significant first (R172 for base 256, R176's accumulation
for base 58). -/
def ofDigits (base : Nat) (ds : List Nat) : Nat := ds.foldl (fun n d => n * base + d) 0

/-- R175: the loop that divides by the base and prepends the remainder, until the quotient is 0. `fuel` bounds the
rounds (R241; log 11). -/
def prependDigits (base : Nat) : (fuel n : Nat) → List Nat → List Nat
  | 0, _, ds => ds
  | fuel + 1, n, ds => if n = 0 then ds else prependDigits base fuel (n / base) (n % base :: ds)

/-- The digits of n in a base of at least 2, most significant first, no digit for 0 (R174, R175). `log2 n + 1` rounds are
always enough, each one at least halving n. -/
def digitsOf (base n : Nat) : List Nat := prependDigits base (n.log2 + 1) n []

/-- R172: `be_value(bs)`. -/
def beValue (bs : List Byte) : Nat := ofDigits 256 (bs.map BitVec.toNat)

/-- R174: `min_be(n)`. -/
def minBe (n : Nat) : List Byte := (digitsOf 256 n).map (BitVec.ofNat 8)

/-- R173: the number of leading elements equal to `c`. -/
def leadCount (c : Byte) (bs : List Byte) : Nat := (bs.takeWhile (· == c)).length

/-- R175: `b58_encode(bs)`. -/
def b58Encode (bs : List Byte) : List Byte :=
  List.replicate (leadCount 0x00#8 bs) 0x31#8 ++ (digitsOf 58 (beValue bs)).map alphabetChar

/-- R176: `b58_decode(s)`; `none` is the error B58_BAD_CHAR. -/
def b58Decode (s : List Byte) : Option (List Byte) :=
  if !s.all inAlphabet then none
  else some (List.replicate (leadCount 0x31#8 s) 0x00#8 ++ minBe (ofDigits 58 (s.map alphabetDigit)))

/-- R185: the first 4 bytes of the double digest, for a digest function `sha`. -/
def check4 (sha : List Byte → Vector Byte 32) (d : List Byte) : List Byte := (sha (sha d).toList).toList.take 4

/-- R185: version and payload with their 4 checksum bytes, for a digest function `sha`. -/
def withCheck (sha : List Byte → Vector Byte 32) (version : Byte) (payload : List Byte) : List Byte :=
  (version :: payload) ++ check4 sha (version :: payload)

/-- R178: F_B58_ENC. -/
def b58EncFn (inb : List Byte) : CmdResult := .ok (b58Encode inb) 0x00000000#32

/-- R181: F_B58_DEC. -/
def b58DecFn (inb : List Byte) : CmdResult :=
  match b58Decode inb with
  | none => .error .b58BadChar
  | some bs => .ok bs 0x00000000#32

/-- R185: F_B58CHK_ENC, with the block's SHA256 collaborator (R12, R217). -/
def b58chkEncFn (version : Byte) (inb : List Byte) : CmdResult :=
  .ok (b58Encode (withCheck Config.sha256 version inb)) 0x00000000#32

/-- B58_ENC (R178). -/
def execB58Enc (s : State) : Host.Outcome State Fault Refusal := .next (runCommand b58EncFn s)

/-- B58_DEC (R181). -/
def execB58Dec (s : State) : Host.Outcome State Fault Refusal := .next (runCommand b58DecFn s)

/-- B58CHK_ENC (R185, R186). -/
def execB58chkEnc (version : BitVec 8) (s : State) : Host.Outcome State Fault Refusal :=
  .next (runCommand (b58chkEncFn version) s)

end Sys2Proof.Machine
end

