-- ==== Sys2Proof/Machine/Bech32.lean ====
section
/-! DEFINITION. The bech32 family (40_bech32.md): the checksum functions, the four command functions and their
meanings. -/

namespace Sys2Proof.Machine

/-- R107: the HRP expansion. -/
def hrpExpand (h : List Byte) : List Word5 :=
  h.map (fun c : Byte => (c >>> 5).setWidth 5) ++ [0#5] ++ h.map (fun c : Byte => c.setWidth 5)

/-- R110: GEN[i] for each set bit i of `b`, all XORed together with `chk`. -/
def foldGenerator (b : BitVec 5) (chk : Checksum) : Checksum :=
  (List.range 5).foldl (fun c i => if b.getLsbD i then c ^^^ generator i else c) chk

/-- R110: one step of polymod: the low 25 bits shifted up 5 with the word XORed in, then the generator of the top 5. -/
def polymodStep (chk : Checksum) (v : Word5) : Checksum :=
  foldGenerator (chk.extractLsb' 25 5) (((chk.extractLsb' 0 25).setWidth 30 <<< 5) ^^^ v.setWidth 30)

/-- R110: polymod, from the initial value 1. -/
def polymod (vs : List Word5) : Checksum := vs.foldl polymodStep 1#30

/-- R111: the six words of a 30-bit value, most significant first. -/
def checksumWords (pm : Checksum) : List Word5 :=
  [pm.extractLsb' 25 5, pm.extractLsb' 20 5, pm.extractLsb' 15 5, pm.extractLsb' 10 5, pm.extractLsb' 5 5,
   pm.extractLsb' 0 5]

/-- R111: checksum creation. -/
def createChecksum (hrp : List Byte) (data : List Word5) : List Word5 :=
  checksumWords (polymod (hrpExpand hrp ++ data ++ List.replicate 6 0#5) ^^^ 1#30)

/-- R112: checksum verification; `data` includes the six checksum words. -/
def verifyChecksum (hrp : List Byte) (data : List Word5) : Bool := polymod (hrpExpand hrp ++ data) == 1#30

/-- R17: the separator `1`. -/
def separator : Byte := 0x31#8

/-- R105: the greatest index at which `c` stands. -/
def lastIndexOf (c : Byte) : List Byte → Option Nat
  | [] => none
  | x :: xs =>
    match lastIndexOf c xs with
    | some j => some (j + 1)
    | none => if x = c then some 0 else none

/-- R115: F_B32_ENC. -/
def b32EncFn (h : Nat) (inb : List Byte) : CmdResult :=
  let hrp := hrpOperand h inb
  if inb.length < h then .error .length
  else if h = 0 then .error .emptyHrp
  else if !hrp.all isAlnum then .error .badChar
  else match asWords (wordsOperand h inb) with
    | none => .error .badWord
    | some words =>
      if Config.bech32MaxLen < h + 1 + words.length + 6 then .error .tooLong
      else
        let lh := hrp.map toLower
        .ok (lh ++ [separator] ++ (words ++ createChecksum lh words).map charsetChar) 0x00000000#32

/-- R119: the part of F_B32_DEC after the separator is found at index `p` of the lowercased input `t`. -/
def b32DecSplit (t : List Byte) (p : Nat) : CmdResult :=
  let hrp := t.take p
  let dchars := t.drop (p + 1)
  if p = 0 then .error .emptyHrp
  else if t.length - p - 1 < 6 then .error .shortData
  else if Config.bech32MaxLen < t.length then .error .tooLong
  else if !dchars.all inCharset then .error .badDataChar
  else
    let data := dchars.map charsetIndex
    if !verifyChecksum hrp data then .error .badChecksum
    else .ok (hrp ++ (data.take (data.length - 6)).map byteOfWord) (BitVec.ofNat 32 p)

/-- R119: F_B32_DEC. -/
def b32DecFn (inb : List Byte) : CmdResult :=
  if !inb.all isAlnum then .error .badChar
  else if inb.any isLower && inb.any isUpper then .error .mixedCase
  else
    let t := inb.map toLower
    match lastIndexOf separator t with
    | none => .error .noSep
    | some p => b32DecSplit t p

/-- R124: F_B32_POLYMOD. -/
def b32PolymodFn (inb : List Byte) : CmdResult :=
  match asWords inb with
  | none => .error .badWord
  | some ws => .ok [] ((polymod ws).setWidth 32)

/-- R127: F_B32_HRPEXP; any byte is expanded (D38). -/
def b32HrpexpFn (inb : List Byte) : CmdResult := .ok ((hrpExpand inb).map byteOfWord) 0x00000000#32

/-- B32_ENC (R115). -/
def execB32Enc (hrplen : BitVec 8) (s : State) : Host.Outcome State Fault Refusal :=
  .next (runCommand (b32EncFn hrplen.toNat) s)

/-- B32_DEC (R119). -/
def execB32Dec (s : State) : Host.Outcome State Fault Refusal := .next (runCommand b32DecFn s)

/-- B32_POLYMOD (R124, R125). -/
def execB32Polymod (s : State) : Host.Outcome State Fault Refusal := .next (runCommand b32PolymodFn s)

/-- B32_HRPEXP (R127). -/
def execB32Hrpexp (s : State) : Host.Outcome State Fault Refusal := .next (runCommand b32HrpexpFn s)

end Sys2Proof.Machine
end

