-- ==== Sys2Proof/Machine/Regroup.lean ====
section
/-! DEFINITION. The bit-regrouping family (41_regroup.md): the accumulator both directions share, the two functions of
R150 and R153, the two command functions and their meanings. -/

namespace Sys2Proof.Machine

/-- R150, R153: the inner `while nbits >= outW`: the groups it emits and the number of bits left. `fuel` bounds the
rounds; `nbits` rounds are always enough, each one consuming `outW` of the bits (R241; log 11). -/
def emitGroups (outW : Nat) : (fuel acc nbits : Nat) → List Nat × Nat
  | 0, _, nbits => ([], nbits)
  | fuel + 1, acc, nbits =>
    if outW ≤ nbits then
      let (groups, left) := emitGroups outW fuel acc (nbits - outW)
      (((acc >>> (nbits - outW)) &&& (2 ^ outW - 1)) :: groups, left)
    else ([], nbits)

/-- R150, R153: the outer loop over the elements, each `inW` bits wide: the groups of `outW` bits it emits, and the
unconsumed bits `acc` with their number. -/
def regroup (inW outW : Nat) : List Nat → (acc nbits : Nat) → List Nat × Nat × Nat
  | [], acc, nbits => ([], acc, nbits)
  | v :: vs, acc, nbits =>
    let acc' := (acc <<< inW) ||| v
    let (groups, left) := emitGroups outW (nbits + inW) acc' (nbits + inW)
    let (rest, accEnd, nEnd) := regroup inW outW vs (acc' &&& ((1 <<< left) - 1)) left
    (groups ++ rest, accEnd, nEnd)

/-- R150: `to_words`. -/
def toWordsOf (bs : List Byte) : List Word5 :=
  let (groups, acc, nbits) := regroup 8 5 (bs.map BitVec.toNat) 0 0
  groups.map (BitVec.ofNat 5) ++ if 0 < nbits then [BitVec.ofNat 5 (acc <<< (5 - nbits))] else []

/-- R153, R154: `from_words`; `none` is the error BAD_PADDING of the strict check. -/
def fromWordsOf (ws : List Word5) (strict : Bool) : Option (List Byte) :=
  let (groups, acc, nbits) := regroup 5 8 (ws.map BitVec.toNat) 0 0
  if strict && 5 ≤ nbits then none
  else if strict && acc != 0 then none
  else some (groups.map (BitVec.ofNat 8))

/-- R151: F_TO_WORDS. -/
def toWordsFn (inb : List Byte) : CmdResult := .ok ((toWordsOf inb).map byteOfWord) 0x00000000#32

/-- R155: F_FROM_WORDS; the word check covers the whole input before any regrouping. -/
def fromWordsFn (strict : Bool) (inb : List Byte) : CmdResult :=
  match asWords inb with
  | none => .error .badWord
  | some ws =>
    match fromWordsOf ws strict with
    | none => .error .badPadding
    | some bs => .ok bs 0x00000000#32

/-- TO_WORDS (R151). -/
def execToWords (s : State) : Host.Outcome State Fault Refusal := .next (runCommand toWordsFn s)

/-- FROM_WORDS (R155, R156). -/
def execFromWords (strict : Bool) (s : State) : Host.Outcome State Fault Refusal :=
  .next (runCommand (fromWordsFn strict) s)

end Sys2Proof.Machine
end

