-- ==== Sys2Proof/Machine/Dispatch.lean ====
section
/-! DEFINITION. One arm per command: Execute (30_encoding.md R76) once the command word is legal. -/

namespace Sys2Proof.Machine

def exec (i : Instr) (s : State) : Host.Outcome State Fault Refusal :=
  match i with
  | .b32Enc hrplen => Sys2Proof.Machine.execB32Enc hrplen s
  | .b32Dec => Sys2Proof.Machine.execB32Dec s
  | .b32Polymod => Sys2Proof.Machine.execB32Polymod s
  | .b32Hrpexp => Sys2Proof.Machine.execB32Hrpexp s
  | .toWords => Sys2Proof.Machine.execToWords s
  | .fromWords strict => Sys2Proof.Machine.execFromWords strict s
  | .b58Enc => Sys2Proof.Machine.execB58Enc s
  | .b58Dec => Sys2Proof.Machine.execB58Dec s
  | .b58chkEnc version => Sys2Proof.Machine.execB58chkEnc version s

end Sys2Proof.Machine
end

