-- ==== Sys2Proof/Machine/Port.lean ====
section
/-! DEFINITION. The host port (20_memory.md R50 to R52): what each access does, and which accesses are bus errors. -/

namespace Sys2Proof.Machine

/-- R24, R76: the write of a command word to CMD runs the command; an illegal word ends as a command with BAD_CMD
(R75, R202), reading neither IN nor INLEN. -/
def writeCmd (w : Word) (s : State) : Host.Outcome State Fault Refusal :=
  match decode w with
  | some i => exec i s
  | none   => .next (finishError .badCmd s)

/-- R51: a 4-byte write of a register: CMD and INLEN can be written; the others are bus errors (R52). -/
def portWriteReg (off : Offset) (v : Word) (s : State) : Host.Outcome State Fault Refusal :=
  match regAt off with
  | some .cmd   => writeCmd v (s.served .written)
  | some .inlen => .next (writeInlen v (s.served .written))
  | _           => .fault (.busError (.write off 4 v))

/-- R51: a 1-byte write: an IN byte; elsewhere a bus error (R52). -/
def portWriteByte (off : Offset) (v : Word) (s : State) : Host.Outcome State Fault Refusal :=
  if isInOffset off.toNat then .next (writeIn (off.toNat - inStart) (v.setWidth 8) (s.served .written))
  else .fault (.busError (.write off 1 v))

/-- R51: a 4-byte read of a register; CMD cannot be read (R52). -/
def portReadReg (off : Offset) (s : State) : Host.Outcome State Fault Refusal :=
  match (regAt off).bind (fun r => readReg r s) with
  | some v => .next (s.served (.word v))
  | none   => .fault (.busError (.read off 4))

/-- R51: a 1-byte read of IN or OUT; elsewhere a bus error (R52). -/
def portReadByte (off : Offset) (s : State) : Host.Outcome State Fault Refusal :=
  if isInOffset off.toNat then .next (s.served (.byte (inByte s (off.toNat - inStart))))
  else if isOutOffset off.toNat then .next (s.served (.byte (outByte s (off.toNat - outStart))))
  else .fault (.busError (.read off 1))

/-- R50 to R52: the port serves one access: 4-byte accesses go to the registers, 1-byte accesses to the buffers, and an
access of any other width is a bus error. -/
def serve (a : Access) (s : State) : Host.Outcome State Fault Refusal :=
  match a with
  | .read off width =>
    if width = 4 then portReadReg off s
    else if width = 1 then portReadByte off s
    else .fault (.busError (.read off width))
  | .write off width v =>
    if width = 4 then portWriteReg off v s
    else if width = 1 then portWriteByte off v s
    else .fault (.busError (.write off width v))

/-- R230, R50: the block takes one input. -/
def takeInput (inp : Input) (s : State) : Host.Outcome State Fault Refusal :=
  match inp with
  | .access a => serve a s
  | .reset    => .next (applyReset s)

/-- The write of the command word `w` to CMD, in one 4-byte access (R70). -/
def cmdWrite (w : Word) : Input := .access (.write 0x000#12 4 w)

end Sys2Proof.Machine
end

