-- ==== Sys2Proof/Machine/Step.lean ====
section
/-! DEFINITION. One step of the block: it takes the oldest input that has arrived at its port (20_memory.md R61), and is
idle where none has (60_exceptions.md R220). -/

namespace Sys2Proof.Machine

/-- One step. -/
def step (s : State) : Host.Outcome State Fault Refusal :=
  match s.pending with
  | []       => .next s
  | inp :: _ => takeInput inp s

/-- The step of a host that goes on after a bus error: the failed access is dropped and nothing of the block changes
(R52, R208, R211; log 1). -/
def advance (s : State) : State :=
  match step s with
  | .next t    => t
  | .fault _   => s.afterBusError
  | .refused _ => s

/-- The state whose very next step is the CMD write of the command word numbered as spec/opcode_table.json numbers it
(log 2). -/
def State.withFetchWord (s : State) (nbits w : Nat) : State :=
  { s with pending := cmdWrite (tableWord nbits w) :: s.pending }

end Sys2Proof.Machine
end

