-- ==== Sys2Proof/Machine/HostNotation.lean ====
section
/-! DEFINITION. The host sequence notation of 30_encoding.md R80: each line as the inputs it puts at the port. `copy` and
`check` are control flow of the host over values it has read, and stay the host's. -/

namespace Sys2Proof.Machine

/-- R23: the offset of a register. -/
def regOffset : Reg → Offset
  | .cmd     => 0x000#12
  | .inlen   => 0x004#12
  | .status  => 0x008#12
  | .errcode => 0x00C#12
  | .outlen  => 0x010#12
  | .result  => 0x014#12

/-- `wr32 REG, v`. -/
def wr32 (r : Reg) (v : Word) : Input := .access (.write (regOffset r) 4 v)

/-- `rd32 REG -> x`. -/
def rd32 (r : Reg) : Input := .access (.read (regOffset r) 4)

/-- `wr8 IN+i, b`. -/
def wr8 (i : Nat) (b : Byte) : Input := .access (.write (BitVec.ofNat 12 (inStart + i)) 1 (b.setWidth 32))

/-- `rd8 OUT+i -> x`. -/
def rd8 (i : Nat) : Input := .access (.read (BitVec.ofNat 12 (outStart + i)) 1)

/-- `cmd <mnemonic> [arg]`. -/
def cmd (i : Instr) : Input := wr32 .cmd (encode i)

/-- `setlen n`. -/
def setlen (n : Nat) : Input := wr32 .inlen (BitVec.ofNat 32 n)

/-- `load i, [b0, b1, ...]`. -/
def load (i : Nat) (bs : List Byte) : List Input := bs.zipIdx.map (fun p => wr8 (i + p.2) p.1)

/-- `fetch a..b -> xs`. -/
def fetch (a b : Nat) : List Input := (List.range (b - a)).map (fun k => rd8 (a + k))

end Sys2Proof.Machine
end

