-- ==== Sys2Proof/Safety.lean ====
section
/-! DEFINITION. What counts as a safe run, and the invariant of the block: what the rules say of its registers and
buffers between two accesses. -/

namespace Sys2Proof.Machine

/-- R51: the legal accesses, and only these. -/
def Access.Legal : Access → Prop
  | .read off 4    => off.toNat ∈ [0x004, 0x008, 0x00C, 0x010, 0x014]
  | .read off 1    => (0x100 ≤ off.toNat ∧ off.toNat < 0x100 + 128) ∨ (0x200 ≤ off.toNat ∧ off.toNat < 0x200 + 256)
  | .write off 4 _ => off.toNat ∈ [0x000, 0x004]
  | .write off 1 _ => 0x100 ≤ off.toNat ∧ off.toNat < 0x100 + 128
  | .read _ _      => False
  | .write _ _ _   => False

/-- An input the platform and the host may put at the port: a reset, or a legal access. -/
def Input.Legal : Input → Prop
  | .access a => a.Legal
  | .reset    => True

/-- A run is safe while every access is legal: no step of it is a bus error (R51, R52). -/
def State.SafeInputs (s : State) : Prop := ∀ inp ∈ s.pending, inp.Legal

/-- R23, R30, R31: bytes are held at offsets of IN and OUT only. -/
def Memory.InBuffers (m : Memory) : Prop := ∀ c ∈ m, isInOffset c.1 = true ∨ isOutOffset c.1 = true

/-- The codes ERRCODE can hold (R200). -/
def errorCodes : List (BitVec 8) :=
  [0x00#8, 0x01#8, 0x02#8, 0x10#8, 0x11#8, 0x12#8, 0x13#8, 0x14#8, 0x15#8, 0x16#8, 0x17#8, 0x18#8, 0x19#8, 0x20#8]

/-- What holds of the block between two accesses. -/
structure State.Inv (s : State) : Prop where
  /-- The memory is in its canonical form. -/
  memory_wf : s.mem.wf
  /-- Bytes are held in IN and OUT only (R23). -/
  memory_inBuffers : s.mem.InBuffers
  /-- OUTLEN is 0..256 (R28). -/
  outlen_le : s.outlen.toNat ≤ 256
  /-- Every output byte below OUTLEN has been written, so no read of OUT shows what reset left there (R31). -/
  out_written : ∀ i < s.outlen.toNat, (Memory.get s.mem (outStart + i)).isSome = true
  /-- ERRCODE holds one of R200's codes. -/
  errcode_listed : s.errcode ∈ errorCodes
  /-- ERR is set exactly where ERRCODE is not 0x00 (R26, R27). -/
  err_iff : s.err = true ↔ s.errcode ≠ 0x00#8
  /-- After an error OUTLEN and RESULT are 0 (R203). -/
  err_outputs : s.err = true → s.outlen = 0#9 ∧ s.result = 0#32
  /-- RESULT[31:30] = 0 (R29). -/
  result_high : s.result.extractLsb' 30 2 = 0#2
  /-- Before the first command since reset every result register holds its reset value 0 (R26, U14). -/
  idle_zero : s.done = false → s.err = false ∧ s.errcode = 0x00#8 ∧ s.outlen = 0#9 ∧ s.result = 0#32

end Sys2Proof.Machine
end

