-- ==== Sys2Proof/Certificates/Slice0/Obligations.lean ====
section
/-! DEFINITION. What is stated of the model, from the numbered rules of spec/. The words the statements share come first
(namespace Sys2Proof.Stated), then one definition for each statement. -/

namespace Sys2Proof.Stated

open Sys2Proof.Machine

/-- R74, on the word itself. -/
def LegalWord (w : Word) : Prop :=
  w.extractLsb' 0 8 ∈ [0x01#8, 0x02#8, 0x03#8, 0x04#8, 0x10#8, 0x11#8, 0x20#8, 0x21#8, 0x22#8] ∧
  w.extractLsb' 17 15 = 0#15 ∧
  (w.extractLsb' 16 1 = 0#1 ∨ w.extractLsb' 0 8 = 0x11#8) ∧
  (w.extractLsb' 8 8 = 0#8 ∨ w.extractLsb' 0 8 = 0x01#8 ∨ w.extractLsb' 0 8 = 0x22#8)

/-- R76 and its frame: `t` is `s` after a command that succeeded with `out` and `result`. Every byte outside
OUT[0..len(out)), INLEN, and what stands at the port are as before. -/
structure SuccessEffect (s t : State) (out : List Byte) (result : Word) : Prop where
  outlen    : t.outlen.toNat = out.length
  bytes     : ∀ k (h : k < out.length), bufferByte t (0x200 + k) = out[k]
  reads     : ∀ k (h : k < out.length), outByte t k = out[k]
  result    : t.result = result
  errcode   : t.errcode = 0x00#8
  done      : t.done = true
  err       : t.err = false
  inlen     : t.inlen = s.inlen
  elsewhere : ∀ a, a < 0x200 ∨ 0x200 + out.length ≤ a → bufferByte t a = bufferByte s a
  pending   : t.pending = s.pending
  response  : t.response = s.response
  resets    : t.resets = s.resets

/-- R203 and its frame: `t` is `s` after a command that ended with the error of this code. Every byte, INLEN and what
stands at the port are as before. -/
structure ErrorEffect (s t : State) (code : BitVec 8) : Prop where
  outlen   : t.outlen = 0#9
  reads    : ∀ k, outByte t k = 0x00#8
  result   : t.result = 0#32
  errcode  : t.errcode = code
  done     : t.done = true
  err      : t.err = true
  inlen    : t.inlen = s.inlen
  bytes    : ∀ a, bufferByte t a = bufferByte s a
  pending  : t.pending = s.pending
  response : t.response = s.response
  resets   : t.resets = s.resets

/-- The command answers a next state, and it succeeded with these outputs. -/
def Succeeds (i : Instr) (s : State) (out : List Byte) (result : Word) : Prop :=
  ∃ t, exec i s = .next t ∧ SuccessEffect s t out result

/-- The command answers a next state, and it ended with the error of this code. -/
def Fails (i : Instr) (s : State) (code : BitVec 8) : Prop :=
  ∃ t, exec i s = .next t ∧ ErrorEffect s t code

/-- OUT[0..OUTLEN) as the host reads it. -/
def outputs (t : State) : List Byte := (List.range t.outlen.toNat).map (outByte t)

/-- Two states show the host the same outcome of a command. -/
def SameOutcome (t u : State) : Prop :=
  t.outlen = u.outlen ∧ t.result = u.result ∧ t.errcode = u.errcode ∧ t.err = u.err ∧ t.done = u.done ∧
  ∀ k, outByte t k = outByte u k

/-- The registers and buffers of the block are the same: every field of R22's tuple. -/
def SameBlock (s t : State) : Prop :=
  t.inlen = s.inlen ∧ t.done = s.done ∧ t.err = s.err ∧ t.errcode = s.errcode ∧ t.outlen = s.outlen ∧
  t.result = s.result ∧ t.mem = s.mem ∧ t.resets = s.resets

/-- R104: both a lowercase and an uppercase letter occur. -/
def Mixed (bs : List Byte) : Prop := (∃ c ∈ bs, isLower c = true) ∧ (∃ c ∈ bs, isUpper c = true)

/-- R105: `p` is the greatest index of a `1`. -/
def LastOne (t : List Byte) (p : Nat) : Prop := t[p]? = some 0x31#8 ∧ ∀ j, p < j → t[j]? ≠ some 0x31#8

/-- R54: a sequence of w-bit elements as one bitstream, each element's most significant bit first. -/
def bitStream (w : Nat) (xs : List (BitVec w)) : List Bool :=
  xs.flatMap (fun x => (List.range w).map (fun i => x.getLsbD (w - 1 - i)))

/-- R172: the sum of the digits by their weights, the first digit the most significant. -/
def bigEndian (base : Nat) (ds : List Nat) : Nat :=
  ∑ i ∈ Finset.range ds.length, ds.getD i 0 * base ^ (ds.length - 1 - i)

/-- R106: every byte is a word. -/
def AllWords (bs : List Byte) : Prop := ∀ b ∈ bs, b.toNat ≤ 31

/-- R53: the words that word bytes hold. -/
def wordsIn (bs : List Byte) : List Word5 := bs.map (fun b => b.setWidth 5)

/-- R53: the bytes that hold words. -/
def bytesOf (ws : List Word5) : List Byte := ws.map (fun w => w.setWidth 8)

end Sys2Proof.Stated

open Sys2Proof Sys2Proof.Machine Sys2Proof.Stated

/-! ### The command word -/

/-- R79 with R77: the word of a command decodes to that command, whatever its operand. -/
def Obligations.DecodeOfEncodeIsTheCommand : Prop := ∀ i : Instr, decode (encode i) = some i

/-- R77 with R79: a word that decodes is the one word of its command. -/
def Obligations.EncodeOfDecodeIsTheWord : Prop := ∀ (w : Word) (i : Instr), decode w = some i → encode i = w

/-- R74: exactly the legal words are commands. -/
def Obligations.DecodesExactlyTheLegalWords : Prop := ∀ w : Word, (∃ i, decode w = some i) ↔ LegalWord w

/-- R77: a word selects at most one row of the table, decodes by the row it selects, and is BAD_CMD where it selects
none. -/
def Obligations.RowsDecideTheWord : Prop :=
  ∀ w : Word,
    opRows.Pairwise (fun r q => ¬ (w &&& r.mask = r.expected ∧ w &&& q.mask = q.expected)) ∧
    (∀ r ∈ opRows, w &&& r.mask = r.expected → decode w = some (r.build (commandFields w))) ∧
    ((∀ r ∈ opRows, w &&& r.mask ≠ r.expected) →
      ∀ s : State, writeCmd w s = .next (finishError .badCmd s) ∧ ErrorEffect s (finishError .badCmd s) 0x01#8)

/-- R79: the table of command words. -/
def Obligations.WordsOfTheAssemblerTable : Prop :=
  (∀ h, encode (.b32Enc h) = 0x00000001#32 ||| (h.setWidth 32 <<< 8)) ∧
  encode .b32Dec = 0x00000002#32 ∧ encode .b32Polymod = 0x00000003#32 ∧ encode .b32Hrpexp = 0x00000004#32 ∧
  encode .toWords = 0x00000010#32 ∧ encode (.fromWords false) = 0x00000011#32 ∧
  encode (.fromWords true) = 0x00010011#32 ∧ encode .b58Enc = 0x00000020#32 ∧ encode .b58Dec = 0x00000021#32 ∧
  (∀ v, encode (.b58chkEnc v) = 0x00000022#32 ||| (v.setWidth 32 <<< 8))

/-- R70, R71: words written out from the fields, one or more of each family, and illegal neighbours (vectors I1 to
I6). -/
def Obligations.WrittenOutWordsDecode : Prop :=
  decode 0b00000000000000000000001000000001#32 = some (.b32Enc 2#8) ∧
  decode 0b00000000000000001111111100000001#32 = some (.b32Enc 255#8) ∧
  decode 0b00000000000000000000000000000010#32 = some .b32Dec ∧
  decode 0b00000000000000010000000000010001#32 = some (.fromWords true) ∧
  decode 0b00000000000000000000000000010000#32 = some .toWords ∧
  decode 0b00000000000000000000010100100010#32 = some (.b58chkEnc 5#8) ∧
  decode 0x00000000#32 = none ∧ decode 0x00000005#32 = none ∧ decode 0x00000102#32 = none ∧
  decode 0x00010010#32 = none ∧ decode 0x00020011#32 = none ∧ decode 0x80000020#32 = none ∧
  decode 0x0001FF22#32 = none

/-! ### The step and the port -/

/-- R76, R24: when the oldest input is the CMD write of a word that decodes to `i`, the step is exec of `i`, after the
port has taken the write off its queue and recorded it as written. -/
def Obligations.StepRunsTheDecodedCommand : Prop :=
  ∀ (s : State) (w : Word) (i : Instr) (rest : List Input),
    s.pending = .access (.write 0x000#12 4 w) :: rest → decode w = some i →
    step s = exec i { s with pending := rest, response := .written }

/-- R202, R75: the CMD write of an illegal word ends with BAD_CMD in every state: it reads neither IN nor INLEN, and
changes what R203 says only. -/
def Obligations.IllegalWordEndsWithBadCmd : Prop :=
  ∀ (s : State) (w : Word) (rest : List Input),
    s.pending = .access (.write 0x000#12 4 w) :: rest → ¬ LegalWord w →
    ∃ t, step s = .next t ∧ ErrorEffect { s with pending := rest, response := .written } t 0x01#8

/-- R52, R208: an access that is none of R51's is a bus error; a host that goes on after it finds every register and
buffer byte as it was, no value returned and no command started. That the step itself stops is the model's choice
and the state after it the model's inference (log 1); the response is a field of the model's own (log 3). -/
def Obligations.IllegalAccessIsABusErrorThatChangesNothing : Prop :=
  ∀ (s : State) (a : Access) (rest : List Input),
    s.pending = .access a :: rest → ¬ a.Legal →
    step s = .fault (.busError a) ∧ advance s = { s with pending := rest, response := .busError }

/-- R51: every access of R51's list is served. -/
def Obligations.LegalAccessIsServed : Prop :=
  ∀ (s : State) (a : Access) (rest : List Input),
    s.pending = .access a :: rest → a.Legal → ∃ t, step s = .next t ∧ t.pending = rest

/-- R25 to R29, R57: a 4-byte read of a register answers its value, reserved bits 0, and changes nothing else. -/
def Obligations.RegisterReadAnswersTheRegister : Prop :=
  ∀ (s : State) (off : Offset) (rest : List Input), s.pending = .access (.read off 4) :: rest →
    (off = 0x004#12 → step s = .next { s with pending := rest, response := .word (0#24 ++ s.inlen) }) ∧
    (off = 0x008#12 → step s = .next
      { s with pending := rest, response := .word (0#30 ++ BitVec.ofBool s.err ++ BitVec.ofBool s.done) }) ∧
    (off = 0x00C#12 → step s = .next { s with pending := rest, response := .word (0#24 ++ s.errcode) }) ∧
    (off = 0x010#12 → step s = .next { s with pending := rest, response := .word (0#23 ++ s.outlen) }) ∧
    (off = 0x014#12 → step s = .next { s with pending := rest, response := .word s.result })

/-- R25: a write of INLEN stores bits [7:0], any value, ignores the others, and changes nothing else; a read then shows
the stored byte with [31:8] zero. -/
def Obligations.InlenWriteStoresTheLowByte : Prop :=
  ∀ (s : State) (v : Word) (rest : List Input), s.pending = .access (.write 0x004#12 4 v) :: rest →
    ∃ t, step s = .next t ∧ t.inlen = v.extractLsb' 0 8 ∧ readReg .inlen t = some (v &&& 0x000000FF#32) ∧
      t = { s with pending := rest, response := .written, inlen := t.inlen }

/-- R30: a 1-byte write of IN[i] stores the byte: reads of IN[i] show it, and every other byte and register is
unchanged. -/
def Obligations.InByteWriteStoresTheByte : Prop :=
  ∀ (s : State) (i : Nat) (v : Word) (rest : List Input), i < 128 →
    s.pending = .access (.write (BitVec.ofNat 12 (0x100 + i)) 1 v) :: rest →
    ∃ t, step s = .next t ∧ inByte t i = v.extractLsb' 0 8 ∧
      (∀ a, a ≠ 0x100 + i → bufferByte t a = bufferByte s a) ∧
      t = { s with pending := rest, response := .written, mem := t.mem }

/-- R30, R31: a 1-byte read of IN[i] answers IN[i]; of OUT[i], OUT[i] below OUTLEN and 0x00 from there on; and changes
nothing else. -/
def Obligations.BufferReadAnswersTheByte : Prop :=
  ∀ (s : State) (i : Nat) (rest : List Input),
    (i < 128 → s.pending = .access (.read (BitVec.ofNat 12 (0x100 + i)) 1) :: rest →
      step s = .next { s with pending := rest, response := .byte (bufferByte s (0x100 + i)) }) ∧
    (i < 256 → s.pending = .access (.read (BitVec.ofNat 12 (0x200 + i)) 1) :: rest →
      step s = .next
        { s with pending := rest, response := .byte (if i < s.outlen.toNat then bufferByte s (0x200 + i) else 0x00#8) })

/-- R58: a read has no side effect: whichever location it reads, every register and buffer byte is as before. -/
def Obligations.ReadsHaveNoSideEffects : Prop :=
  ∀ (s t : State) (off : Offset) (width : Nat) (rest : List Input),
    s.pending = .access (.read off width) :: rest → step s = .next t → SameBlock s t ∧ t.pending = rest

/-- R220: with nothing at its port the block is idle and holds its state. -/
def Obligations.IdleBlockHoldsItsState : Prop := ∀ s : State, s.pending = [] → step s = .next s

/-- R35: the state after reset. -/
def Obligations.ResetValues : Prop :=
  readReg .inlen State.reset = some 0#32 ∧ readReg .status State.reset = some 0x00000000#32 ∧
  readReg .errcode State.reset = some 0x00000000#32 ∧ readReg .outlen State.reset = some 0x00000000#32 ∧
  readReg .result State.reset = some 0x00000000#32 ∧
  (∀ i, i < 128 → inByte State.reset i = Config.unwrittenByte State.reset.resets (0x100 + i)) ∧
  (∀ i, outByte State.reset i = 0x00#8)

/-- R230, R232: a reset served between two accesses, in any state, leaves R35's values, draws every IN byte anew, shows
no output byte, and leaves the inputs that arrive after it. -/
def Obligations.ResetInputLeavesTheResetValues : Prop :=
  ∀ (s : State) (rest : List Input), s.pending = .reset :: rest →
    ∃ t, step s = .next t ∧ t.inlen = 0#8 ∧ t.done = false ∧ t.err = false ∧ t.errcode = 0#8 ∧ t.outlen = 0#9 ∧
      t.result = 0#32 ∧ t.pending = rest ∧ t.resets = s.resets + 1 ∧
      (∀ i, i < 128 → inByte t i = Config.unwrittenByte (s.resets + 1) (0x100 + i)) ∧
      (∀ i, outByte t i = 0x00#8)

/-- R30, R232, R238: an IN byte changes by nothing but a host's write of that byte or a reset, written or not. -/
def Obligations.InByteChangesOnlyByItsWriteOrReset : Prop :=
  ∀ (s t : State) (inp : Input) (rest : List Input) (i : Nat), i < 128 → s.pending = inp :: rest → inp ≠ .reset →
    (∀ v, inp ≠ .access (.write (BitVec.ofNat 12 (0x100 + i)) 1 v)) →
    step s = .next t → inByte t i = inByte s i

/-- R207, R32: no access but a CMD write, and no step but a reset, changes STATUS, ERRCODE, OUTLEN, RESULT or what a read
of OUT shows. -/
def Obligations.OutcomeStaysUntilNextCommandOrReset : Prop :=
  ∀ (s t : State) (inp : Input) (rest : List Input), s.pending = inp :: rest → inp ≠ .reset →
    (∀ v, inp ≠ .access (.write 0x000#12 4 v)) → step s = .next t → SameOutcome t s

/-- R26: DONE is never cleared except by reset. -/
def Obligations.DoneStaysUntilReset : Prop :=
  ∀ s t : State, s.done = true → (∀ rest, s.pending ≠ .reset :: rest) → step s = .next t → t.done = true

/-- The invariant holds after reset. -/
def Obligations.InvariantHoldsAtReset : Prop := State.reset.Inv

/-- R26 to R31, R200, R203: every step keeps the invariant of the registers and buffers. -/
def Obligations.StepKeepsTheInvariant : Prop := ∀ s t : State, s.Inv → step s = .next t → t.Inv

/-- R51, R241: a run whose accesses are all legal never stops, however long. -/
def Obligations.SafeInputsNeverStopARun : Prop :=
  ∀ (n : Nat) (s : State), s.SafeInputs → ∃ t, Host.Core.run Sys2Proof.core n s = .next t ∧ t.SafeInputs

/-- R10, R50: the offset of a physical address in the window, at a BASE that is a multiple of 4096. -/
def Obligations.WindowStandsAtBase : Prop :=
  4096 ∣ Config.base ∧
  ∀ (addr : Nat) (off : Offset), windowOffset addr = some off ↔ addr = Config.base + off.toNat

/-! ### Whole-machine rules of commands -/

/-- R241, R26, R32: in every state every command completes, sets DONE, and sets ERR exactly with an error code. -/
def Obligations.EveryCommandCompletes : Prop :=
  ∀ (i : Instr) (s : State), ∃ t, exec i s = .next t ∧ t.done = true ∧
    ((t.err = false ∧ t.errcode = 0x00#8) ∨ (t.err = true ∧ t.errcode ≠ 0x00#8))

/-- R76, R238, R205: the frame of every command: INLEN, IN, every byte from OUTLEN on and what stands at the port are
unchanged, and after an error every byte is. -/
def Obligations.CommandsWriteOnlyTheirOutputs : Prop :=
  ∀ (i : Instr) (s t : State), exec i s = .next t →
    t.inlen = s.inlen ∧ t.pending = s.pending ∧ t.response = s.response ∧ t.resets = s.resets ∧
    (∀ a, a < 0x200 ∨ 0x200 + t.outlen.toNat ≤ a → bufferByte t a = bufferByte s a) ∧
    (t.err = true → ∀ a, bufferByte t a = bufferByte s a)

/-- R203: a command that ends with an error writes OUTLEN, RESULT, ERRCODE and STATUS, and nothing else; OUT then reads
as 0x00 at every index. -/
def Obligations.ErrorsArePreciseAndHideOutput : Prop :=
  ∀ (i : Instr) (s t : State), exec i s = .next t → t.err = true →
    t = { s with outlen := 0#9, result := 0#32, errcode := t.errcode, done := true, err := true } ∧
    readReg .status t = some 0x00000003#32 ∧ ∀ k, outByte t k = 0x00#8

/-- R34: for the same IN[0..INLEN), INLEN and command word, every CMD write gives the same outcome. -/
def Obligations.OutcomeDependsOnlyOnInputAndWord : Prop :=
  ∀ (s u s' u' : State) (w : Word) (rest rest' : List Input),
    s.pending = .access (.write 0x000#12 4 w) :: rest → u.pending = .access (.write 0x000#12 4 w) :: rest' →
    s.inlen = u.inlen → (∀ k, k < s.inlen.toNat → k < 128 → inByte s k = inByte u k) →
    step s = .next s' → step u = .next u' → SameOutcome s' u'

/-- R201: LENGTH is raised in three places and no other: INLEN over 128, the output of B32_HRPEXP with INLEN = 128, and
B32_ENC with HRPLEN over INLEN. -/
def Obligations.LengthIsRaisedInExactlyThreePlaces : Prop :=
  ∀ (i : Instr) (s t : State), exec i s = .next t →
    (t.errcode = 0x02#8 ↔
      (128 < s.inlen.toNat ∨ (i = .b32Hrpexp ∧ s.inlen.toNat = 128) ∨
        ∃ h, i = .b32Enc h ∧ s.inlen.toNat < h.toNat))

/-- R200: each command ends with no code but those R200 lists it under. -/
def Obligations.CommandsReportOnlyTheirCodes : Prop :=
  ∀ (i : Instr) (s t : State), exec i s = .next t →
    t.errcode ∈ [0x00#8, 0x02#8] ∨
    (match i with
      | .b32Enc _       => t.errcode ∈ [0x10#8, 0x13#8, 0x15#8, 0x18#8]
      | .b32Dec         => t.errcode ∈ [0x10#8, 0x11#8, 0x12#8, 0x13#8, 0x14#8, 0x15#8, 0x16#8, 0x17#8]
      | .b32Polymod     => t.errcode = 0x18#8
      | .b32Hrpexp      => False
      | .toWords        => False
      | .fromWords true => t.errcode ∈ [0x18#8, 0x19#8]
      | .fromWords false => t.errcode = 0x18#8
      | .b58Enc         => False
      | .b58Dec         => t.errcode = 0x20#8
      | .b58chkEnc _    => False)

/-- R204 (2): with INLEN over 128 every command ends with LENGTH, whatever its input. -/
def Obligations.OverlongInlenEndsWithLength : Prop :=
  ∀ (i : Instr) (s : State), 128 < s.inlen.toNat → Fails i s 0x02#8

/-! ### Characters and tables -/

/-- R16: the character classes, on every byte. -/
def Obligations.CharacterClasses : Prop :=
  ∀ c : Byte,
    (isDigit c = true ↔ 0x30 ≤ c.toNat ∧ c.toNat ≤ 0x39) ∧ (isUpper c = true ↔ 0x41 ≤ c.toNat ∧ c.toNat ≤ 0x5A) ∧
    (isLower c = true ↔ 0x61 ≤ c.toNat ∧ c.toNat ≤ 0x7A) ∧
    (isAlnum c = true ↔ isDigit c = true ∨ isUpper c = true ∨ isLower c = true) ∧
    (toLower c).toNat = (if isUpper c then c.toNat + 0x20 else c.toNat) ∧
    (0x80 ≤ c.toNat → isAlnum c = false)

/-- R101, R102: the charset's 32 characters in the order of R101's table (values the spec takes from general knowledge,
log 10), its index, and the alphanumeric characters outside it. -/
def Obligations.CharsetAndItsIndex : Prop :=
  (List.finRange 32).map (fun v => charsetChar (BitVec.ofFin v)) =
    [0x71#8, 0x70#8, 0x7A#8, 0x72#8, 0x79#8, 0x39#8, 0x78#8, 0x38#8] ++
    [0x67#8, 0x66#8, 0x32#8, 0x74#8, 0x76#8, 0x64#8, 0x77#8, 0x30#8] ++
    [0x73#8, 0x33#8, 0x6A#8, 0x6E#8, 0x35#8, 0x34#8, 0x6B#8, 0x68#8] ++
    [0x63#8, 0x65#8, 0x36#8, 0x6D#8, 0x75#8, 0x61#8, 0x37#8, 0x6C#8] ∧
  (∀ v : Word5, inCharset (charsetChar v) = true ∧ charsetIndex (charsetChar v) = v) ∧
  (∀ c : Byte, inCharset c = true → charsetChar (charsetIndex c) = c) ∧
  (∀ c : Byte, isAlnum c = true → (inCharset c = false ↔ c ∈ [0x31#8, 0x62#8, 0x69#8, 0x6F#8] ∨ isUpper c = true)) ∧
  (∀ c : Byte, inCharset c = true → isDigit c = true ∨ isLower c = true)

/-- R170, R171: the base-58 alphabet and its digits: the 58 characters of `[1-9A-Za-z]` without `O`, `I` and `l`, in
ascending order. -/
def Obligations.AlphabetAndItsDigits : Prop :=
  (∀ d, d < 58 → inAlphabet (alphabetChar d) = true ∧ alphabetDigit (alphabetChar d) = d) ∧
  (∀ c : Byte, inAlphabet c = true → alphabetDigit c < 58 ∧ alphabetChar (alphabetDigit c) = c) ∧
  (∀ c : Byte, inAlphabet c = true ↔ isAlnum c = true ∧ c ∉ [0x30#8, 0x4F#8, 0x49#8, 0x6C#8]) ∧
  (∀ d e, d < e → e < 58 → (alphabetChar d).toNat < (alphabetChar e).toNat) ∧ alphabetChar 0 = 0x31#8

/-! ### Bech32 -/

/-- R110, R109: polymod's initial value, its step with the five generators, and the values the rule gives. -/
def Obligations.PolymodStepAndValues : Prop :=
  polymod [] = 1#30 ∧ polymod [0#5] = 32#30 ∧ polymod [1#5] = 33#30 ∧ polymod [31#5] = 63#30 ∧
  polymod [0#5, 0#5, 0#5, 0#5, 0#5, 0#5] = 0x3B6A57B2#30 ∧
  ∀ (vs : List Word5) (v : Word5),
    polymod (vs ++ [v]) =
      (((polymod vs).extractLsb' 0 25 ++ 0#5) ^^^ (0#25 ++ v)) ^^^
      ((if (polymod vs).getLsbD 25 then 0x3B6A57B2#30 else 0#30) ^^^
       ((if (polymod vs).getLsbD 26 then 0x26508E6D#30 else 0#30) ^^^
        ((if (polymod vs).getLsbD 27 then 0x1EA119FA#30 else 0#30) ^^^
         ((if (polymod vs).getLsbD 28 then 0x3D4233DD#30 else 0#30) ^^^
          (if (polymod vs).getLsbD 29 then 0x2A1462B3#30 else 0#30)))))

/-- R111: the checksum is the six words, most significant first, of the polymod of the expanded HRP, the data and six zero
words, XORed with 1; for the HRP `a` and no words that is 0x15CCFE9F and the checksum is spelled `2uel5l`. -/
def Obligations.ChecksumIsThePolymodOverZeros : Prop :=
  polymod [3#5, 0#5, 1#5, 0#5, 0#5, 0#5, 0#5, 0#5, 0#5] ^^^ 1#30 = 0x15CCFE9F#30 ∧
  createChecksum [0x61#8] [] = [10#5, 28#5, 25#5, 31#5, 20#5, 31#5] ∧
  (createChecksum [0x61#8] []).map charsetChar = [0x32#8, 0x75#8, 0x65#8, 0x6C#8, 0x35#8, 0x6C#8] ∧
  ∀ (hrp : List Byte) (data : List Word5), ∃ c0 c1 c2 c3 c4 c5 : Word5,
    createChecksum hrp data = [c0, c1, c2, c3, c4, c5] ∧
    c0 ++ c1 ++ c2 ++ c3 ++ c4 ++ c5 =
      polymod (hrp.map (fun c : Byte => (c >>> 5).setWidth 5) ++ [0#5] ++ hrp.map (fun c : Byte => c.setWidth 5) ++ data ++
        [0#5, 0#5, 0#5, 0#5, 0#5, 0#5]) ^^^ 1#30

/-- R112: what verification compares, and that every created checksum verifies. -/
def Obligations.CreatedChecksumVerifies : Prop :=
  (∀ (hrp : List Byte) (data : List Word5), verifyChecksum hrp data = true ↔ polymod (hrpExpand hrp ++ data) = 1#30) ∧
  ∀ (hrp : List Byte) (words : List Word5), verifyChecksum hrp (words ++ createChecksum hrp words) = true

/-- R115: B32_ENC: its word, its errors in check order, and its output. -/
def Obligations.B32EncFollowsItsRule : Prop :=
  ∀ (h : BitVec 8), encode (.b32Enc h) = 0x00000001#32 ||| (h.setWidth 32 <<< 8) ∧
  ∀ (s : State), s.inlen.toNat ≤ 128 →
    let hrp := (input s).take h.toNat
    let wordBytes := (input s).drop h.toNat
    (s.inlen.toNat < h.toNat → Fails (.b32Enc h) s 0x02#8) ∧
    (h.toNat ≤ s.inlen.toNat →
      (h.toNat = 0 → Fails (.b32Enc h) s 0x13#8) ∧
      (h.toNat ≠ 0 →
        ((∃ c ∈ hrp, isAlnum c = false) → Fails (.b32Enc h) s 0x10#8) ∧
        ((∀ c ∈ hrp, isAlnum c = true) →
          (¬ AllWords wordBytes → Fails (.b32Enc h) s 0x18#8) ∧
          (AllWords wordBytes →
            (90 < h.toNat + 1 + wordBytes.length + 6 → Fails (.b32Enc h) s 0x15#8) ∧
            (h.toNat + 1 + wordBytes.length + 6 ≤ 90 →
              Succeeds (.b32Enc h) s
                (hrp.map toLower ++ [0x31#8] ++
                  (wordsIn wordBytes ++ createChecksum (hrp.map toLower) (wordsIn wordBytes)).map charsetChar)
                0#32)))))

/-- R119, R120, R121: B32_DEC: its word, its errors in the order of R120, and its output: the lowercase HRP and the words
without their checksum, RESULT the HRP's length. -/
def Obligations.B32DecFollowsItsRule : Prop :=
  encode .b32Dec = 0x00000002#32 ∧
  ∀ (s : State), s.inlen.toNat ≤ 128 →
    let t := (input s).map toLower
    ((∃ c ∈ input s, isAlnum c = false) → Fails .b32Dec s 0x10#8) ∧
    ((∀ c ∈ input s, isAlnum c = true) →
      (Mixed (input s) → Fails .b32Dec s 0x11#8) ∧
      (¬ Mixed (input s) →
        (0x31#8 ∉ t → Fails .b32Dec s 0x12#8) ∧
        (∀ p, LastOne t p →
          let hrp := t.take p
          let dchars := t.drop (p + 1)
          (p = 0 → Fails .b32Dec s 0x13#8) ∧
          (p ≠ 0 →
            (dchars.length < 6 → Fails .b32Dec s 0x14#8) ∧
            (6 ≤ dchars.length →
              (90 < s.inlen.toNat → Fails .b32Dec s 0x15#8) ∧
              (s.inlen.toNat ≤ 90 →
                ((∃ c ∈ dchars, inCharset c = false) → Fails .b32Dec s 0x16#8) ∧
                ((∀ c ∈ dchars, inCharset c = true) →
                  (polymod (hrpExpand hrp ++ dchars.map charsetIndex) ≠ 1#30 → Fails .b32Dec s 0x17#8) ∧
                  (polymod (hrpExpand hrp ++ dchars.map charsetIndex) = 1#30 →
                    Succeeds .b32Dec s
                      (hrp ++ bytesOf ((dchars.map charsetIndex).take (dchars.length - 6)))
                      (BitVec.ofNat 32 p)))))))))

/-- R124, R125, R106: B32_POLYMOD: its word, BAD_WORD, and the 30-bit polymod in RESULT with no output byte. -/
def Obligations.B32PolymodFollowsItsRule : Prop :=
  encode .b32Polymod = 0x00000003#32 ∧
  ∀ (s : State), s.inlen.toNat ≤ 128 →
    (¬ AllWords (input s) → Fails .b32Polymod s 0x18#8) ∧
    (AllWords (input s) → Succeeds .b32Polymod s [] (0#2 ++ polymod (wordsIn (input s))))

/-- R127, R107: B32_HRPEXP: its word, the high 3 bits of each byte, a zero, the low 5 bits of each byte; LENGTH with
INLEN = 128. -/
def Obligations.B32HrpexpFollowsItsRule : Prop :=
  encode .b32Hrpexp = 0x00000004#32 ∧
  ∀ (s : State),
    (s.inlen.toNat < 128 →
      Succeeds .b32Hrpexp s
        ((input s).map (fun c : Byte => c >>> 5) ++ [0x00#8] ++ (input s).map (fun c : Byte => c &&& 31#8)) 0#32) ∧
    (s.inlen.toNat = 128 → Fails .b32Hrpexp s 0x02#8)

/-- R100, R103, R119: a string that decodes has 8 to 90 characters; the output is its HRP of RESULT lowercase
alphanumeric characters and INLEN - 7 - RESULT words. -/
def Obligations.DecodedOutputShape : Prop :=
  ∀ s t : State, exec .b32Dec s = .next t → t.err = false →
    8 ≤ s.inlen.toNat ∧ s.inlen.toNat ≤ 90 ∧ t.outlen.toNat + 7 = s.inlen.toNat ∧
    1 ≤ t.result.toNat ∧ t.result.toNat ≤ t.outlen.toNat ∧
    (∀ k, k < t.result.toNat → isAlnum (outByte t k) = true ∧ isUpper (outByte t k) = false) ∧
    (∀ k, t.result.toNat ≤ k → k < t.outlen.toNat → (outByte t k).toNat ≤ 31)

/-- R114: a string with no mixed case decodes to the same outcome as its lowercase form. -/
def Obligations.CaseOfTheWholeStringDoesNotMatter : Prop :=
  ∀ s u s' u' : State, ¬ Mixed (input s) → input u = (input s).map toLower →
    exec .b32Dec s = .next s' → exec .b32Dec u = .next u' → SameOutcome s' u'

/-- R129: what B32_ENC encodes, B32_DEC decodes; and what B32_DEC decodes, B32_ENC encodes. -/
def Obligations.EncodeAndDecodeRoundTrip : Prop :=
  (∀ (s t u : State) (h : BitVec 8), exec (.b32Enc h) s = .next t → t.err = false → input u = outputs t →
    Succeeds .b32Dec u (((input s).take h.toNat).map toLower ++ (input s).drop h.toNat) (BitVec.ofNat 32 h.toNat)) ∧
  (∀ (s t u : State) (h : BitVec 8), exec .b32Dec s = .next t → t.err = false → input u = outputs t →
    h.toNat = t.result.toNat → Succeeds (.b32Enc h) u ((input s).map toLower) 0#32)

/-- R113, as R119 and R120 make it: in the data part of a valid string, a character replaced by one that is not the same
letter in the other case makes B32_DEC fail, with the code of the check the new character breaks. The rule's own words
leave out two corners, which R119 decides and this statement does not claim: a `1` with six or more characters after it
(it moves the separator), and the other case of the string's only letter (log 13). -/
def Obligations.SingleSubstitutionIsDetected : Prop :=
  ∀ (s u s' u' : State) (k : Nat) (c : Byte),
    exec .b32Dec s = .next s' → s'.err = false → s'.result.toNat < k → k < s.inlen.toNat →
    input u = (input s).set k c → toLower c ≠ toLower (inByte s k) → exec .b32Dec u = .next u' →
    (isAlnum c = false → u'.errcode = 0x10#8) ∧
    (isAlnum c = true → Mixed (input u) → u'.errcode = 0x11#8) ∧
    (isAlnum c = true → ¬ Mixed (input u) →
      (inCharset (toLower c) = true → u'.errcode = 0x17#8) ∧
      (inCharset (toLower c) = false → c ≠ 0x31#8 → u'.errcode = 0x16#8) ∧
      (c = 0x31#8 → s.inlen.toNat - k - 1 < 6 → u'.errcode = 0x14#8))

/-- R104, R114, R119 against R113's words: the other case of a valid string's only letter is no error: `01822570e0` and
`01822570E0` both decode, to the HRP `0` and the words 7 and 10. In general, a character of a valid string written in its
other case makes B32_DEC fail with MIXED_CASE where another letter shows the first case, and changes nothing of the
outcome where none does. That R119 is followed here is the model's reading (log 13). -/
def Obligations.CaseOfTheOnlyLetterIsNotDetected : Prop :=
  (∀ s : State,
    input s = [0x30#8, 0x31#8, 0x38#8, 0x32#8, 0x32#8, 0x35#8, 0x37#8, 0x30#8, 0x65#8, 0x30#8] ∨
    input s = [0x30#8, 0x31#8, 0x38#8, 0x32#8, 0x32#8, 0x35#8, 0x37#8, 0x30#8, 0x45#8, 0x30#8] →
    Succeeds .b32Dec s [0x30#8, 0x07#8, 0x0A#8] 1#32) ∧
  ∀ (s u s' u' : State) (k : Nat) (c : Byte),
    exec .b32Dec s = .next s' → s'.err = false → k < s.inlen.toNat →
    input u = (input s).set k c → toLower c = toLower (inByte s k) → exec .b32Dec u = .next u' →
    (Mixed (input u) → u'.errcode = 0x11#8) ∧
    (¬ Mixed (input u) → SameOutcome s' u')

/-! ### Regrouping -/

/-- R151, R150: TO_WORDS: its word, and its output: the input's bits in order, cut into groups of five, the last one
completed with at most four zero bits. -/
def Obligations.ToWordsFollowsItsRule : Prop :=
  encode .toWords = 0x00000010#32 ∧
  ∀ (s : State), s.inlen.toNat ≤ 128 →
    ∃ ws : List Word5, ws.length = (8 * s.inlen.toNat + 4) / 5 ∧
      bitStream 5 ws = bitStream 8 (input s) ++ List.replicate (5 * ws.length - 8 * s.inlen.toNat) false ∧
      Succeeds .toWords s (bytesOf ws) 0#32

/-- R155, R153, R154, R156: FROM_WORDS: its words, BAD_WORD before any regrouping, the strict check, and its output: the
words' bits in order, cut into bytes, the trailing bits dropped. -/
def Obligations.FromWordsFollowsItsRule : Prop :=
  encode (.fromWords false) = 0x00000011#32 ∧ encode (.fromWords true) = 0x00010011#32 ∧
  ∀ (strict : Bool) (s : State), s.inlen.toNat ≤ 128 →
    let bits := bitStream 5 (wordsIn (input s))
    let k := 5 * s.inlen.toNat / 8
    (¬ AllWords (input s) → Fails (.fromWords strict) s 0x18#8) ∧
    (AllWords (input s) →
      (strict = true → (5 ≤ (bits.drop (8 * k)).length ∨ true ∈ bits.drop (8 * k)) →
        Fails (.fromWords strict) s 0x19#8) ∧
      (strict = false ∨ ((bits.drop (8 * k)).length < 5 ∧ true ∉ bits.drop (8 * k)) →
        ∃ bs : List Byte, bs.length = k ∧ bitStream 8 bs = bits.take (8 * k) ∧ Succeeds (.fromWords strict) s bs 0#32))

/-- R157: FROM_WORDS of TO_WORDS gives the bytes back, in both modes. -/
def Obligations.RegroupRoundTrip : Prop :=
  ∀ (bs : List Byte) (strict : Bool), fromWordsOf (toWordsOf bs) strict = some bs

/-- R158: TO_WORDS of FROM_WORDS gives the words back exactly where the strict check passes, which is where at most four
bits trail and all are zero. -/
def Obligations.ReverseRegroupExactlyWhenStrictPasses : Prop :=
  ∀ (ws : List Word5) (bs : List Byte), fromWordsOf ws false = some bs →
    (toWordsOf bs = ws ↔ (fromWordsOf ws true).isSome = true) ∧
    ((fromWordsOf ws true).isSome = true ↔
      5 * ws.length % 8 ≤ 4 ∧ true ∉ (bitStream 5 ws).drop (8 * (5 * ws.length / 8)))

/-! ### Base-58 -/

/-- R175, R172, R173: base-58 encoding: a `1` for each leading zero byte, then the digits, without a leading zero digit,
of the big-endian value. -/
def Obligations.Base58EncodingIsCanonical : Prop :=
  ∀ bs : List Byte, ∃ ds : List Nat,
    b58Encode bs = List.replicate (bs.takeWhile (fun b => b = 0x00#8)).length 0x31#8 ++ ds.map alphabetChar ∧
    (∀ d ∈ ds, d < 58) ∧ ds.head? ≠ some 0 ∧ bigEndian 58 ds = bigEndian 256 (bs.map BitVec.toNat)

/-- R176, R174: base-58 decoding: the error for a foreign character wherever it stands; else a zero byte for each leading
`1`, then the bytes, without a leading zero byte, of the value. -/
def Obligations.Base58DecodingIsMinimal : Prop :=
  ∀ str : List Byte,
    ((∃ c ∈ str, inAlphabet c = false) → b58Decode str = none) ∧
    ((∀ c ∈ str, inAlphabet c = true) → ∃ m : List Byte,
      b58Decode str = some (List.replicate (str.takeWhile (fun c => c = 0x31#8)).length 0x00#8 ++ m) ∧
      m.head? ≠ some 0x00#8 ∧
      bigEndian 256 (m.map BitVec.toNat) = bigEndian 58 (str.map alphabetDigit))

/-- R177: encoding and decoding base-58 are inverse to each other. -/
def Obligations.Base58Bijection : Prop :=
  (∀ bs : List Byte, b58Decode (b58Encode bs) = some bs) ∧
  (∀ str : List Byte, (∀ c ∈ str, inAlphabet c = true) → ∃ bs, b58Decode str = some bs ∧ b58Encode bs = str)

/-- R178: B58_ENC: its word, its output of at most 175 characters, and no error of its own. -/
def Obligations.B58EncFollowsItsRule : Prop :=
  encode .b58Enc = 0x00000020#32 ∧
  ∀ (s : State), s.inlen.toNat ≤ 128 →
    (b58Encode (input s)).length ≤ 175 ∧ Succeeds .b58Enc s (b58Encode (input s)) 0#32

/-- R181: B58_DEC: its word, B58_BAD_CHAR wherever the foreign character stands, and its output of at most INLEN
bytes. -/
def Obligations.B58DecFollowsItsRule : Prop :=
  encode .b58Dec = 0x00000021#32 ∧
  ∀ (s : State), s.inlen.toNat ≤ 128 →
    ((∃ c ∈ input s, inAlphabet c = false) → Fails .b58Dec s 0x20#8) ∧
    ((∀ c ∈ input s, inAlphabet c = true) → ∃ bs, b58Decode (input s) = some bs ∧ bs.length ≤ s.inlen.toNat ∧
      Succeeds .b58Dec s bs 0#32)

/-- R185, R186: B58CHK_ENC: its word; the base-58 encoding of version, payload and the first four bytes of the double
digest, for the block's SHA256 whatever function it is; at most 182 characters; a leading `1` for version 0. -/
def Obligations.B58chkEncFollowsItsRule : Prop :=
  ∀ (v : BitVec 8), encode (.b58chkEnc v) = 0x00000022#32 ||| (v.setWidth 32 <<< 8) ∧
  ∀ (s : State), s.inlen.toNat ≤ 128 →
    let d := [v] ++ input s
    let c := (Config.sha256 (Config.sha256 d).toList).toList.take 4
    c.length = 4 ∧ (b58Encode (d ++ c)).length ≤ 182 ∧ (v = 0#8 → (b58Encode (d ++ c)).head? = some 0x31#8) ∧
    Succeeds (.b58chkEnc v) s (b58Encode (d ++ c)) 0#32

/-! ### The host's protocol -/

/-- R80: the notation's lines are the accesses R80 gives: the two registers it writes and the five it reads, any byte of
IN and OUT, and the expansions of cmd, setlen, load and fetch. -/
def Obligations.HostNotationIsTheAccessesOfTheTable : Prop :=
  (∀ v, wr32 .cmd v = .access (.write 0x000#12 4 v) ∧ wr32 .inlen v = .access (.write 0x004#12 4 v)) ∧
  rd32 .inlen = .access (.read 0x004#12 4) ∧
  rd32 .status = .access (.read 0x008#12 4) ∧ rd32 .errcode = .access (.read 0x00C#12 4) ∧
  rd32 .outlen = .access (.read 0x010#12 4) ∧ rd32 .result = .access (.read 0x014#12 4) ∧
  (∀ (i : Nat) (b : Byte), wr8 i b = .access (.write (BitVec.ofNat 12 (0x100 + i)) 1 (0#24 ++ b))) ∧
  (∀ i : Nat, rd8 i = .access (.read (BitVec.ofNat 12 (0x200 + i)) 1)) ∧
  (∀ i : Instr, cmd i = .access (.write 0x000#12 4 (encode i))) ∧
  (∀ n : Nat, setlen n = .access (.write 0x004#12 4 (BitVec.ofNat 32 n))) ∧
  (∀ i : Nat, load i [] = []) ∧
  (∀ (i : Nat) (b : Byte) (bs : List Byte),
    load i (b :: bs) = .access (.write (BitVec.ofNat 12 (0x100 + i)) 1 (0#24 ++ b)) :: load (i + 1) bs) ∧
  (∀ a b : Nat, b ≤ a → fetch a b = []) ∧
  (∀ a b : Nat, a < b → fetch a b = .access (.read (BitVec.ofNat 12 (0x200 + a)) 1) :: fetch (a + 1) b)

/-- R234, R61: from any state, a host that loads n bytes into IN, sets INLEN = n and writes CMD has its command run on
exactly those bytes. -/
def Obligations.CommandProtocolRunsOnTheLoadedBytes : Prop :=
  ∀ (s : State) (bs : List Byte) (i : Instr) (rest : List Input), bs.length ≤ 128 →
    s.pending = load 0 bs ++ [setlen bs.length, cmd i] ++ rest →
    ∃ u, input u = bs ∧ u.pending = rest ∧ u.resets = s.resets ∧ SameOutcome u s ∧
      (∀ a, a < 0x100 ∨ 0x100 + bs.length ≤ a → bufferByte u a = bufferByte s a) ∧
      Host.Core.run Sys2Proof.core (bs.length + 2) s = exec i u
end

