-- ==== Sys2Proof/Laws/Codec.lean ====
section
/-! SUPPORT. One specification lemma for each helper of the codecs: the last separator, the word check, the digits of a
number, the groups the accumulator emits. They also show that the loops' fuel is always enough (log 11). -/

namespace Sys2Proof.Machine

/-- R106. -/
theorem isWordByte_iff (b : Byte) : isWordByte b = true ↔ b.toNat ≤ 31 := by
  simp [isWordByte, BitVec.le_def]

/-- R106: the word check passes exactly where every byte is a word. -/
theorem asWords_eq_some_iff (bs : List Byte) (ws : List Word5) :
    asWords bs = some ws ↔ (∀ b ∈ bs, b.toNat ≤ 31) ∧ ws = bs.map wordOfByte := by
  unfold asWords
  split
  · rename_i h
    simp only [List.all_eq_true, isWordByte_iff] at h
    exact ⟨fun hw => ⟨h, (Option.some.inj hw).symm⟩, fun hw => congrArg some hw.2.symm⟩
  · rename_i h
    simp only [List.all_eq_true, isWordByte_iff] at h
    simp [h]

theorem lastIndexOf_eq_none_iff (c : Byte) (xs : List Byte) : lastIndexOf c xs = none ↔ c ∉ xs := by
  induction xs with
  | nil => simp [lastIndexOf]
  | cons x xs ih =>
    simp only [lastIndexOf]
    cases h : lastIndexOf c xs with
    | some j =>
      have : c ∈ xs := by
        by_contra hn
        simp [ih.mpr hn] at h
      simp [this]
    | none =>
      have hn := ih.mp h
      by_cases hx : x = c
      · simp [hx]
      · simp [hx, hn, Ne.symm hx]

/-- R105: the index found holds `c`, and no later index does. -/
theorem lastIndexOf_eq_some_iff (c : Byte) (xs : List Byte) (p : Nat) :
    lastIndexOf c xs = some p ↔ xs[p]? = some c ∧ ∀ j, p < j → xs[j]? ≠ some c := by
  induction xs generalizing p with
  | nil => simp [lastIndexOf]
  | cons x xs ih =>
    simp only [lastIndexOf]
    cases h : lastIndexOf c xs with
    | some j =>
      obtain ⟨h1, h2⟩ := (ih j).mp h
      constructor
      · intro hp
        obtain rfl : j + 1 = p := by simpa using hp
        refine ⟨by simpa using h1, fun k hk => ?_⟩
        cases k with
        | zero => omega
        | succ k => simpa using h2 k (by omega)
      · rintro ⟨h3, h4⟩
        cases p with
        | zero => exact absurd (by simpa using h1) (h4 (j + 1) (by omega))
        | succ p =>
          have : lastIndexOf c xs = some p :=
            (ih p).mpr ⟨by simpa using h3, fun k hk => by simpa using h4 (k + 1) (by omega)⟩
          rw [h] at this
          simpa using this
    | none =>
      have hn := (lastIndexOf_eq_none_iff c xs).mp h
      have hxs : ∀ k : Nat, xs[k]? ≠ some c := fun k hk => hn (List.mem_of_getElem? hk)
      constructor
      · intro hp
        by_cases hx : x = c
        · obtain rfl : 0 = p := by simpa [hx] using hp
          refine ⟨by simp [hx], fun k hk => ?_⟩
          cases k with
          | zero => omega
          | succ k => simpa using hxs k
        · simp [hx] at hp
      · rintro ⟨h3, -⟩
        cases p with
        | zero =>
          have : x = c := by simpa using h3
          simp [this]
        | succ p => exact absurd (by simpa using h3) (hxs p)

theorem ofDigits_append_singleton (base : Nat) (ds : List Nat) (d : Nat) :
    ofDigits base (ds ++ [d]) = ofDigits base ds * base + d := by
  simp [ofDigits, List.foldl_append]

/-- What the digit loop adds in front: digits of n below the base, no leading zero, denoting n. -/
theorem prependDigits_spec {base : Nat} (hb : 2 ≤ base) (fuel n : Nat) (h : n < 2 ^ fuel) (ds : List Nat) :
    ∃ es, prependDigits base fuel n ds = es ++ ds ∧ (∀ e ∈ es, e < base) ∧ es.head? ≠ some 0 ∧
      ofDigits base es = n := by
  induction fuel generalizing n ds with
  | zero =>
    obtain rfl : n = 0 := by simpa using h
    exact ⟨[], rfl, by simp, by simp, rfl⟩
  | succ fuel ih =>
    by_cases hn : n = 0
    · subst hn
      exact ⟨[], by simp [prependDigits], by simp, by simp, rfl⟩
    · have hlt : n / base < 2 ^ fuel := by
        have h2 : n / base ≤ n / 2 := Nat.div_le_div_left hb (by omega)
        rw [Nat.pow_succ] at h
        omega
      obtain ⟨es, h1, h2, h3, h4⟩ := ih (n / base) hlt (n % base :: ds)
      refine ⟨es ++ [n % base], by simp [prependDigits, hn, h1], ?_, ?_, ?_⟩
      · intro e he
        rcases List.mem_append.mp he with he | he
        · exact h2 e he
        · obtain rfl : e = n % base := by simpa using he
          exact Nat.mod_lt _ (by omega)
      · cases es with
        | nil =>
          have hz : n / base = 0 := h4.symm
          have hm : n % base = n := by
            have := Nat.div_add_mod n base
            rw [hz] at this
            omega
          simp [hm, hn]
        | cons e es => simpa using h3
      · rw [ofDigits_append_singleton, h4, Nat.mul_comm]
        exact Nat.div_add_mod n base

/-- R174, R175: the digits of n are below the base, begin with no zero, and denote n. -/
theorem digitsOf_spec {base : Nat} (hb : 2 ≤ base) (n : Nat) :
    (∀ d ∈ digitsOf base n, d < base) ∧ (digitsOf base n).head? ≠ some 0 ∧ ofDigits base (digitsOf base n) = n := by
  obtain ⟨es, h1, h2, h3, h4⟩ := prependDigits_spec hb (n.log2 + 1) n Nat.lt_log2_self []
  rw [List.append_nil] at h1
  rw [digitsOf, h1]
  exact ⟨h2, h3, h4⟩

/-- R150, R153: with fuel for every round, `nbits / outW` groups are emitted and `nbits % outW` bits are left. -/
theorem emitGroups_counts {outW : Nat} (hw : 1 ≤ outW) (fuel acc nbits : Nat) (h : nbits ≤ fuel) :
    (emitGroups outW fuel acc nbits).1.length = nbits / outW ∧ (emitGroups outW fuel acc nbits).2 = nbits % outW := by
  induction fuel generalizing nbits with
  | zero =>
    obtain rfl : nbits = 0 := by omega
    simp [emitGroups]
  | succ fuel ih =>
    by_cases hle : outW ≤ nbits
    · obtain ⟨h1, h2⟩ := ih (nbits - outW) (by omega)
      simp only [emitGroups, hle, if_true, List.length_cons, h1, h2]
      exact ⟨(Nat.div_eq_sub_div (by omega) hle).symm, (Nat.mod_eq_sub_mod hle).symm⟩
    · simp [emitGroups, hle, Nat.div_eq_of_lt (Nat.lt_of_not_le hle), Nat.mod_eq_of_lt (Nat.lt_of_not_le hle)]

end Sys2Proof.Machine
end

