-- ==== Sys2Proof/Laws/State.lean ====
section
/-! SUPPORT. One lemma for each field and each update of State, so that no later proof unfolds a record update. -/

namespace Sys2Proof.Machine

/-! The fields after `finishError` (R203). -/

@[simp] theorem finishError_inlen (code : ErrCode) (s : State) :
    (finishError code s).inlen = s.inlen := rfl
@[simp] theorem finishError_done (code : ErrCode) (s : State) :
    (finishError code s).done = true := rfl
@[simp] theorem finishError_err (code : ErrCode) (s : State) :
    (finishError code s).err = true := rfl
@[simp] theorem finishError_errcode (code : ErrCode) (s : State) :
    (finishError code s).errcode = code.code := rfl
@[simp] theorem finishError_outlen (code : ErrCode) (s : State) :
    (finishError code s).outlen = 0#9 := rfl
@[simp] theorem finishError_result (code : ErrCode) (s : State) :
    (finishError code s).result = 0#32 := rfl
@[simp] theorem finishError_mem (code : ErrCode) (s : State) :
    (finishError code s).mem = s.mem := rfl
@[simp] theorem finishError_pending (code : ErrCode) (s : State) :
    (finishError code s).pending = s.pending := rfl
@[simp] theorem finishError_response (code : ErrCode) (s : State) :
    (finishError code s).response = s.response := rfl
@[simp] theorem finishError_resets (code : ErrCode) (s : State) :
    (finishError code s).resets = s.resets := rfl

/-! The fields after `finishOk` (R76). -/

@[simp] theorem finishOk_inlen (out : List Byte) (r : Word) (s : State) :
    (finishOk out r s).inlen = s.inlen := rfl
@[simp] theorem finishOk_done (out : List Byte) (r : Word) (s : State) :
    (finishOk out r s).done = true := rfl
@[simp] theorem finishOk_err (out : List Byte) (r : Word) (s : State) :
    (finishOk out r s).err = false := rfl
@[simp] theorem finishOk_errcode (out : List Byte) (r : Word) (s : State) :
    (finishOk out r s).errcode = noErrorCode := rfl
@[simp] theorem finishOk_outlen (out : List Byte) (r : Word) (s : State) :
    (finishOk out r s).outlen = BitVec.ofNat 9 out.length := rfl
@[simp] theorem finishOk_result (out : List Byte) (r : Word) (s : State) :
    (finishOk out r s).result = r := rfl
@[simp] theorem finishOk_mem (out : List Byte) (r : Word) (s : State) :
    (finishOk out r s).mem = Memory.setAll s.mem outStart out := rfl
@[simp] theorem finishOk_pending (out : List Byte) (r : Word) (s : State) :
    (finishOk out r s).pending = s.pending := rfl
@[simp] theorem finishOk_response (out : List Byte) (r : Word) (s : State) :
    (finishOk out r s).response = s.response := rfl
@[simp] theorem finishOk_resets (out : List Byte) (r : Word) (s : State) :
    (finishOk out r s).resets = s.resets := rfl

/-! The fields after `writeInlen` (R25). -/

@[simp] theorem writeInlen_inlen (v : Word) (s : State) :
    (writeInlen v s).inlen = v.setWidth 8 := rfl
@[simp] theorem writeInlen_done (v : Word) (s : State) :
    (writeInlen v s).done = s.done := rfl
@[simp] theorem writeInlen_err (v : Word) (s : State) :
    (writeInlen v s).err = s.err := rfl
@[simp] theorem writeInlen_errcode (v : Word) (s : State) :
    (writeInlen v s).errcode = s.errcode := rfl
@[simp] theorem writeInlen_outlen (v : Word) (s : State) :
    (writeInlen v s).outlen = s.outlen := rfl
@[simp] theorem writeInlen_result (v : Word) (s : State) :
    (writeInlen v s).result = s.result := rfl
@[simp] theorem writeInlen_mem (v : Word) (s : State) :
    (writeInlen v s).mem = s.mem := rfl
@[simp] theorem writeInlen_pending (v : Word) (s : State) :
    (writeInlen v s).pending = s.pending := rfl
@[simp] theorem writeInlen_response (v : Word) (s : State) :
    (writeInlen v s).response = s.response := rfl
@[simp] theorem writeInlen_resets (v : Word) (s : State) :
    (writeInlen v s).resets = s.resets := rfl

/-! The fields after `writeIn` (R30). -/

@[simp] theorem writeIn_inlen (i : Nat) (v : Byte) (s : State) :
    (writeIn i v s).inlen = s.inlen := rfl
@[simp] theorem writeIn_done (i : Nat) (v : Byte) (s : State) :
    (writeIn i v s).done = s.done := rfl
@[simp] theorem writeIn_err (i : Nat) (v : Byte) (s : State) :
    (writeIn i v s).err = s.err := rfl
@[simp] theorem writeIn_errcode (i : Nat) (v : Byte) (s : State) :
    (writeIn i v s).errcode = s.errcode := rfl
@[simp] theorem writeIn_outlen (i : Nat) (v : Byte) (s : State) :
    (writeIn i v s).outlen = s.outlen := rfl
@[simp] theorem writeIn_result (i : Nat) (v : Byte) (s : State) :
    (writeIn i v s).result = s.result := rfl
@[simp] theorem writeIn_mem (i : Nat) (v : Byte) (s : State) :
    (writeIn i v s).mem = Memory.set s.mem (inStart + i) v := rfl
@[simp] theorem writeIn_pending (i : Nat) (v : Byte) (s : State) :
    (writeIn i v s).pending = s.pending := rfl
@[simp] theorem writeIn_response (i : Nat) (v : Byte) (s : State) :
    (writeIn i v s).response = s.response := rfl
@[simp] theorem writeIn_resets (i : Nat) (v : Byte) (s : State) :
    (writeIn i v s).resets = s.resets := rfl

/-! The fields after `served` (R61). -/

@[simp] theorem served_inlen (s : State) (r : Response) :
    (s.served r).inlen = s.inlen := rfl
@[simp] theorem served_done (s : State) (r : Response) :
    (s.served r).done = s.done := rfl
@[simp] theorem served_err (s : State) (r : Response) :
    (s.served r).err = s.err := rfl
@[simp] theorem served_errcode (s : State) (r : Response) :
    (s.served r).errcode = s.errcode := rfl
@[simp] theorem served_outlen (s : State) (r : Response) :
    (s.served r).outlen = s.outlen := rfl
@[simp] theorem served_result (s : State) (r : Response) :
    (s.served r).result = s.result := rfl
@[simp] theorem served_mem (s : State) (r : Response) :
    (s.served r).mem = s.mem := rfl
@[simp] theorem served_pending (s : State) (r : Response) :
    (s.served r).pending = s.pending.tail := rfl
@[simp] theorem served_response (s : State) (r : Response) :
    (s.served r).response = r := rfl
@[simp] theorem served_resets (s : State) (r : Response) :
    (s.served r).resets = s.resets := rfl

/-! The fields after `applyReset` (R230). -/

@[simp] theorem applyReset_inlen (s : State) :
    (applyReset s).inlen = 0#8 := rfl
@[simp] theorem applyReset_done (s : State) :
    (applyReset s).done = false := rfl
@[simp] theorem applyReset_err (s : State) :
    (applyReset s).err = false := rfl
@[simp] theorem applyReset_errcode (s : State) :
    (applyReset s).errcode = 0#8 := rfl
@[simp] theorem applyReset_outlen (s : State) :
    (applyReset s).outlen = 0#9 := rfl
@[simp] theorem applyReset_result (s : State) :
    (applyReset s).result = 0#32 := rfl
@[simp] theorem applyReset_mem (s : State) :
    (applyReset s).mem = [] := rfl
@[simp] theorem applyReset_pending (s : State) :
    (applyReset s).pending = s.pending.tail := rfl
@[simp] theorem applyReset_response (s : State) :
    (applyReset s).response = .none := rfl
@[simp] theorem applyReset_resets (s : State) :
    (applyReset s).resets = s.resets + 1 := rfl

/-! The fields after `withFetchWord` (R76). -/

@[simp] theorem withFetchWord_inlen (s : State) (n w : Nat) :
    (s.withFetchWord n w).inlen = s.inlen := rfl
@[simp] theorem withFetchWord_done (s : State) (n w : Nat) :
    (s.withFetchWord n w).done = s.done := rfl
@[simp] theorem withFetchWord_err (s : State) (n w : Nat) :
    (s.withFetchWord n w).err = s.err := rfl
@[simp] theorem withFetchWord_errcode (s : State) (n w : Nat) :
    (s.withFetchWord n w).errcode = s.errcode := rfl
@[simp] theorem withFetchWord_outlen (s : State) (n w : Nat) :
    (s.withFetchWord n w).outlen = s.outlen := rfl
@[simp] theorem withFetchWord_result (s : State) (n w : Nat) :
    (s.withFetchWord n w).result = s.result := rfl
@[simp] theorem withFetchWord_mem (s : State) (n w : Nat) :
    (s.withFetchWord n w).mem = s.mem := rfl
@[simp] theorem withFetchWord_pending (s : State) (n w : Nat) :
    (s.withFetchWord n w).pending = cmdWrite (tableWord n w) :: s.pending := rfl
@[simp] theorem withFetchWord_response (s : State) (n w : Nat) :
    (s.withFetchWord n w).response = s.response := rfl
@[simp] theorem withFetchWord_resets (s : State) (n w : Nat) :
    (s.withFetchWord n w).resets = s.resets := rfl

end Sys2Proof.Machine
end

