-- ==== Sys2Proof/Laws/Ops.lean ====
section
/-! SUPPORT. What the shared operations can do, said once: reading a buffer byte after each write, the completion of a
command, and the meaning of every command as one run of its command function. -/

namespace Sys2Proof.Machine

/-- R23: IN's offsets. -/
theorem isInOffset_iff (a : Nat) : isInOffset a = true ↔ 0x100 ≤ a ∧ a < 0x180 := by
  simp [isInOffset, inStart, Config.inSize]

/-- R23: OUT's offsets. -/
theorem isOutOffset_iff (a : Nat) : isOutOffset a = true ↔ 0x200 ≤ a ∧ a < 0x300 := by
  simp [isOutOffset, outStart, Config.outSize]

/-- R23: the register offsets. -/
theorem regAt_eq_some_iff (off : Offset) (r : Reg) : regAt off = some r ↔
    (off = 0x000#12 ∧ r = .cmd) ∨ (off = 0x004#12 ∧ r = .inlen) ∨ (off = 0x008#12 ∧ r = .status) ∨
    (off = 0x00C#12 ∧ r = .errcode) ∨ (off = 0x010#12 ∧ r = .outlen) ∨ (off = 0x014#12 ∧ r = .result) := by
  unfold regAt
  constructor
  · intro h
    split at h
    all_goals cases h
    all_goals simp [← BitVec.toNat_inj, *]
  · rintro (⟨rfl, rfl⟩ | ⟨rfl, rfl⟩ | ⟨rfl, rfl⟩ | ⟨rfl, rfl⟩ | ⟨rfl, rfl⟩ | ⟨rfl, rfl⟩) <;> rfl

/-- A buffer byte depends on the memory and the reset counter only. -/
theorem bufferByte_congr {s t : State} (hm : t.mem = s.mem) (hr : t.resets = s.resets) (a : Nat) :
    bufferByte t a = bufferByte s a := by
  simp [bufferByte, hm, hr]

@[simp] theorem bufferByte_served (s : State) (r : Response) (a : Nat) :
    bufferByte (s.served r) a = bufferByte s a := rfl

@[simp] theorem bufferByte_finishError (code : ErrCode) (s : State) (a : Nat) :
    bufferByte (finishError code s) a = bufferByte s a := rfl

@[simp] theorem bufferByte_writeInlen (v : Word) (s : State) (a : Nat) :
    bufferByte (writeInlen v s) a = bufferByte s a := rfl

theorem bufferByte_writeIn_self (i : Nat) (v : Byte) (s : State) :
    bufferByte (writeIn i v s) (inStart + i) = v := by
  simp [bufferByte, Memory.get_set_self]

theorem bufferByte_writeIn_of_ne {i a : Nat} (v : Byte) (s : State) (h : inStart + i ≠ a) :
    bufferByte (writeIn i v s) a = bufferByte s a := by
  simp [bufferByte, Memory.get_set_of_ne _ _ h]

theorem bufferByte_finishOk_inside (out : List Byte) (r : Word) (s : State) (k : Nat) (h : k < out.length) :
    bufferByte (finishOk out r s) (outStart + k) = out[k] := by
  simp [bufferByte, Memory.get_setAll_inside _ _ _ _ h]

theorem bufferByte_finishOk_outside (out : List Byte) (r : Word) (s : State) {a : Nat}
    (h : a < outStart ∨ outStart + out.length ≤ a) : bufferByte (finishOk out r s) a = bufferByte s a := by
  rcases h with h | h
  · simp [bufferByte, Memory.get_setAll_of_lt _ _ h]
  · simp [bufferByte, Memory.get_setAll_of_ge _ _ h]

/-- R31: after an error OUT reads as 0x00 everywhere. -/
@[simp] theorem outByte_finishError (code : ErrCode) (s : State) (i : Nat) : outByte (finishError code s) i = 0#8 := by
  simp [outByte]

/-- R73: the input sequence has INLEN elements. -/
@[simp] theorem length_input (s : State) : (input s).length = s.inlen.toNat := by
  simp [input]

/-- R76: everything a completion can do. -/
theorem complete_cases (r : CmdResult) (s : State) :
    (∃ out v, r = .ok out v ∧ out.length ≤ Config.outSize ∧ complete r s = finishOk out v s) ∨
    (∃ out v, r = .ok out v ∧ Config.outSize < out.length ∧ complete r s = finishError .length s) ∨
    (∃ code, r = .error code ∧ complete r s = finishError code s) := by
  cases r with
  | error code => exact .inr (.inr ⟨code, rfl, rfl⟩)
  | ok out v =>
    by_cases h : Config.outSize < out.length
    · exact .inr (.inl ⟨out, v, rfl, h, by simp [complete, h]⟩)
    · exact .inl ⟨out, v, rfl, Nat.le_of_not_lt h, by simp [complete, h]⟩

/-- R76: everything the run of a command function can do. -/
theorem runCommand_cases (f : List Byte → CmdResult) (s : State) :
    (∃ out v, s.inlen.toNat ≤ Config.inSize ∧ f (input s) = .ok out v ∧ out.length ≤ Config.outSize ∧
      runCommand f s = finishOk out v s) ∨
    (∃ code, runCommand f s = finishError code s ∧
      ((Config.inSize < s.inlen.toNat ∧ code = .length) ∨
       (s.inlen.toNat ≤ Config.inSize ∧ f (input s) = .error code) ∨
       (∃ out v, s.inlen.toNat ≤ Config.inSize ∧ f (input s) = .ok out v ∧ Config.outSize < out.length ∧
         code = .length))) := by
  by_cases h : Config.inSize < s.inlen.toNat
  · exact .inr ⟨.length, by simp [runCommand, h], .inl ⟨h, rfl⟩⟩
  · have hle := Nat.le_of_not_lt h
    have hrun : runCommand f s = complete (f (input s)) s := by simp [runCommand, h]
    rcases complete_cases (f (input s)) s with ⟨out, v, h1, h2, h3⟩ | ⟨out, v, h1, h2, h3⟩ | ⟨code, h1, h2⟩
    · exact .inl ⟨out, v, hle, h1, h2, hrun.trans h3⟩
    · exact .inr ⟨.length, hrun.trans h3, .inr (.inr ⟨out, v, hle, h1, h2, rfl⟩)⟩
    · exact .inr ⟨code, hrun.trans h2, .inr (.inl ⟨hle, h1⟩)⟩

/-- R71: the command function F_op of each command. -/
def commandFn : Instr → List Byte → CmdResult
  | .b32Enc h    => b32EncFn h.toNat
  | .b32Dec      => b32DecFn
  | .b32Polymod  => b32PolymodFn
  | .b32Hrpexp   => b32HrpexpFn
  | .toWords     => toWordsFn
  | .fromWords b => fromWordsFn b
  | .b58Enc      => b58EncFn
  | .b58Dec      => b58DecFn
  | .b58chkEnc v => b58chkEncFn v

/-- R76: the meaning of every command is one run of its command function. -/
theorem exec_eq_runCommand (i : Instr) (s : State) : exec i s = .next (runCommand (commandFn i) s) := by
  cases i <;> rfl

end Sys2Proof.Machine
end

