-- ==== Sys2Proof/Laws/PerInstr.lean ====
section
/-! SUPPORT. Statements made of every command as syntax, one lemma a constructor. -/

namespace Sys2Proof.Laws

/-- R79 against R74: the command word of the command is a legal one. -/
def EncodesLegally.Statement (i : Instr) : Prop := (commandFields (encode i)).legal = true

theorem EncodesLegally.b32Enc (hrplen : BitVec 8) : EncodesLegally.Statement (.b32Enc hrplen) := by
  revert hrplen; unfold EncodesLegally.Statement; decide

theorem EncodesLegally.b32Dec : EncodesLegally.Statement .b32Dec := by
  unfold EncodesLegally.Statement; decide

theorem EncodesLegally.b32Polymod : EncodesLegally.Statement .b32Polymod := by
  unfold EncodesLegally.Statement; decide

theorem EncodesLegally.b32Hrpexp : EncodesLegally.Statement .b32Hrpexp := by
  unfold EncodesLegally.Statement; decide

theorem EncodesLegally.toWords : EncodesLegally.Statement .toWords := by
  unfold EncodesLegally.Statement; decide

theorem EncodesLegally.fromWords (strict : Bool) : EncodesLegally.Statement (.fromWords strict) := by
  revert strict; unfold EncodesLegally.Statement; decide

theorem EncodesLegally.b58Enc : EncodesLegally.Statement .b58Enc := by
  unfold EncodesLegally.Statement; decide

theorem EncodesLegally.b58Dec : EncodesLegally.Statement .b58Dec := by
  unfold EncodesLegally.Statement; decide

theorem EncodesLegally.b58chkEnc (version : BitVec 8) : EncodesLegally.Statement (.b58chkEnc version) := by
  revert version; unfold EncodesLegally.Statement; decide

end Sys2Proof.Laws
end

