-- ==== Sys2Proof/Laws/Port.lean ====
section
/-! SUPPORT. What a step can do, said once: `serve_cases` lists every way an access can be served (20_memory.md R51,
R52), `step_cases` every way the machine can go on. -/

namespace Sys2Proof.Machine

/-- R20, R220: with nothing pending the block is idle. -/
theorem step_of_pending_nil {s : State} (h : s.pending = []) : step s = .next s := by
  simp [step, h]

/-- R61: the oldest input is taken. -/
theorem step_of_pending_cons {s : State} {inp : Input} {rest : List Input} (h : s.pending = inp :: rest) :
    step s = takeInput inp s := by
  simp [step, h]

/-- R76: what a CMD write can do: the run of a command, or BAD_CMD. -/
theorem writeCmd_eq (w : Word) (s : State) :
    writeCmd w s = .next (match decode w with
      | some i => runCommand (commandFn i) s
      | none => finishError .badCmd s) := by
  unfold writeCmd
  cases decode w with
  | none => rfl
  | some i => exact exec_eq_runCommand i s

/-- R51, R52: every way a port access can be served. -/
theorem serve_cases {a : Access} {s t : State} (h : serve a s = .next t) :
    (∃ off v w, a = .read off 4 ∧ (regAt off).bind (fun r => readReg r s) = some w ∧ v = s.served (.word w) ∧ t = v) ∨
    (∃ off, a = .read off 1 ∧ isInOffset off.toNat = true ∧
      t = s.served (.byte (inByte s (off.toNat - inStart)))) ∨
    (∃ off, a = .read off 1 ∧ isInOffset off.toNat = false ∧ isOutOffset off.toNat = true ∧
      t = s.served (.byte (outByte s (off.toNat - outStart)))) ∨
    (∃ off w, a = .write off 4 w ∧ regAt off = some .cmd ∧ writeCmd w (s.served .written) = .next t) ∨
    (∃ off w, a = .write off 4 w ∧ regAt off = some .inlen ∧ t = writeInlen w (s.served .written)) ∨
    (∃ off w, a = .write off 1 w ∧ isInOffset off.toNat = true ∧
      t = writeIn (off.toNat - inStart) (w.setWidth 8) (s.served .written)) := by
  cases a with
  | read off width =>
    simp only [serve] at h
    split at h
    · rename_i hw
      subst hw
      simp only [portReadReg] at h
      split at h
      · rename_i v hv
        exact .inl ⟨off, _, v, rfl, hv, rfl, by simpa using h.symm⟩
      · cases h
    · split at h
      · rename_i hw
        subst hw
        simp only [portReadByte] at h
        split at h
        · rename_i hin
          exact .inr (.inl ⟨off, rfl, hin, by simpa using h.symm⟩)
        · split at h
          · rename_i hin hout
            exact .inr (.inr (.inl ⟨off, rfl, by simpa using hin, hout, by simpa using h.symm⟩))
          · cases h
      · cases h
  | write off width w =>
    simp only [serve] at h
    split at h
    · rename_i hw
      subst hw
      unfold portWriteReg at h
      split at h
      · rename_i hr
        exact .inr (.inr (.inr (.inl ⟨off, w, rfl, hr, h⟩)))
      · rename_i hr
        exact .inr (.inr (.inr (.inr (.inl ⟨off, w, rfl, hr, by simpa using h.symm⟩))))
      · cases h
    · split at h
      · rename_i hw
        subst hw
        simp only [portWriteByte] at h
        split at h
        · rename_i hin
          exact .inr (.inr (.inr (.inr (.inr ⟨off, w, rfl, hin, by simpa using h.symm⟩))))
        · cases h
      · cases h

/-- Every way a step can answer a next state. -/
theorem step_cases {s t : State} (h : step s = .next t) :
    (s.pending = [] ∧ t = s) ∨
    (∃ rest, s.pending = .reset :: rest ∧ t = applyReset s) ∨
    (∃ a rest, s.pending = .access a :: rest ∧ serve a s = .next t) := by
  unfold step at h
  split at h
  · rename_i hp
    exact .inl ⟨hp, by simpa using h.symm⟩
  · rename_i inp rest hp
    cases inp with
    | reset => exact .inr (.inl ⟨rest, hp, by simpa [takeInput] using h.symm⟩)
    | access a => exact .inr (.inr ⟨a, rest, hp, h⟩)

end Sys2Proof.Machine
end

