-- ==== Sys2Proof/Tests/Slice0.lean ====
section
/-! SUPPORT. The model's own tests. Expected values are spec/95_test_vectors.md's (row named in each comment) or the
worked examples of the rules. After them, one witness for the hypotheses of each statement. -/

namespace Sys2Proof.Tests

open Sys2Proof.Machine Sys2Proof.Stated

/-- The state after reset with `bs` in IN and INLEN its length. -/
def loaded (bs : List Byte) : State :=
  { State.reset with inlen := BitVec.ofNat 8 bs.length, mem := Memory.setAll [] inStart bs }

/-- The state after reset with INLEN = n and no IN byte written. -/
def unloaded (n : Nat) : State := { State.reset with inlen := BitVec.ofNat 8 n }

/-- The state after reset with these inputs at the port. -/
def facing (inputs : List Input) : State := { State.reset with pending := inputs }

/-- The command succeeded with these outputs. -/
def okIs (o : Host.Outcome State Fault Refusal) (out : List Byte) (r : Word) : Bool :=
  match o with
  | .next t => t.done && !t.err && t.errcode == 0#8 && outputs t == out && t.result == r
  | _ => false

/-- The command ended with this code. -/
def errIs (o : Host.Outcome State Fault Refusal) (code : BitVec 8) : Bool :=
  match o with
  | .next t => t.done && t.err && t.errcode == code && t.outlen == 0#9 && t.result == 0#32 && outByte t 0 == 0#8
  | _ => false

/-- The step stopped with a bus error. -/
def isBusError (o : Host.Outcome State Fault Refusal) : Bool :=
  match o with
  | .fault (.busError _) => true
  | _ => false

/-- What the port answered. -/
def answered (o : Host.Outcome State Fault Refusal) (r : Response) : Bool :=
  match o with
  | .next t => t.response == r
  | _ => false

/-! ### WellFormed: each check refuses an ill-formed word (R74) -/

theorem test_legal_accepts : (CommandFields.mk 0x11#8 0#8 1#1 0#15).legal = true := by decide
theorem test_opAssigned_refuses : (CommandFields.mk 0x05#8 0#8 0#1 0#15).opAssigned = false := by decide
theorem test_rsvZero_refuses : (CommandFields.mk 0x11#8 0#8 0#1 1#15).rsvZero = false := by decide
theorem test_strict_refuses : (CommandFields.mk 0x10#8 0#8 1#1 0#15).strictOnlyOnFromWords = false := by decide
theorem test_arg_refuses : (CommandFields.mk 0x02#8 1#8 0#1 0#15).argOnlyWhereUsed = false := by decide

/-! ### Decode: words written out from R70 and R71 -/

theorem test_decode_b32Enc : decode 0b00000000000000000000010100000001#32 = some (.b32Enc 5#8) := by decide
theorem test_decode_b32Dec : decode 0b00000000000000000000000000000010#32 = some .b32Dec := by decide
theorem test_decode_b32Polymod : decode 0b00000000000000000000000000000011#32 = some .b32Polymod := by decide
theorem test_decode_b32Hrpexp : decode 0b00000000000000000000000000000100#32 = some .b32Hrpexp := by decide
theorem test_decode_toWords : decode 0b00000000000000000000000000010000#32 = some .toWords := by decide
theorem test_decode_fromWords : decode 0b00000000000000000000000000010001#32 = some (.fromWords false) := by decide
theorem test_decode_fromWords_strict :
    decode 0b00000000000000010000000000010001#32 = some (.fromWords true) := by decide
theorem test_decode_b58Enc : decode 0b00000000000000000000000000100000#32 = some .b58Enc := by decide
theorem test_decode_b58Dec : decode 0b00000000000000000000000000100001#32 = some .b58Dec := by decide
theorem test_decode_b58chkEnc : decode 0b00000000000000001000000000100010#32 = some (.b58chkEnc 0x80#8) := by decide
/-- I1 to I6. -/
theorem test_decode_illegal :
    [0x00000000#32, 0x00000005#32, 0x00000012#32, 0x00000023#32, 0x000000FF#32, 0x00000102#32, 0x00000111#32,
      0x00010010#32, 0x00010002#32, 0x00020011#32, 0x80000020#32, 0x0001FF22#32].all
        (fun w => (decode w).isNone) = true := by decide
theorem test_decodeTableWord : decodeTableWord 32 0x522 = some (.b58chkEnc 5#8) := by decide

/-! ### Commands -/

/-- M8, M10. -/
theorem test_b32Polymod : okIs (exec .b32Polymod (loaded [3, 0, 1, 0, 0, 0, 0, 0, 0])) [] 0x15CCFE9E#32 = true := by
  decide
theorem test_b32Polymod_badWord : errIs (exec .b32Polymod (loaded [32])) 0x18#8 = true := by decide
/-- X3, and X1 of `bc`. -/
theorem test_b32Hrpexp_upper : okIs (exec .b32Hrpexp (loaded [0x41])) [2, 0, 1] 0#32 = true := by decide
theorem test_b32Hrpexp : okIs (exec .b32Hrpexp (loaded [0x62, 0x63])) [3, 3, 0, 2, 3] 0#32 = true := by decide
/-- E4: `abcde` and the words 31, 0, 15 give `abcde1lq08wrl3y`. -/
theorem test_b32Enc :
    okIs (exec (.b32Enc 5) (loaded [0x61, 0x62, 0x63, 0x64, 0x65, 31, 0, 15]))
      [0x61, 0x62, 0x63, 0x64, 0x65, 0x31, 0x6C, 0x71, 0x30, 0x38, 0x77, 0x72, 0x6C, 0x33, 0x79] 0#32 = true := by
  decide +kernel
/-- E11: HRPLEN over INLEN. -/
theorem test_b32Enc_length : errIs (exec (.b32Enc 2) (loaded [0x61])) 0x02#8 = true := by decide
/-- B1: `A12UEL5L`. -/
theorem test_b32Dec :
    okIs (exec .b32Dec (loaded [0x41, 0x31, 0x32, 0x55, 0x45, 0x4C, 0x35, 0x4C])) [0x61] 1#32 = true := by
  decide +kernel
/-- B22: `A1G7SGD8`. -/
theorem test_b32Dec_checksum :
    errIs (exec .b32Dec (loaded [0x41, 0x31, 0x47, 0x37, 0x53, 0x47, 0x44, 0x38])) 0x17#8 = true := by
  decide +kernel
/-- T5 and T3. -/
theorem test_toWords : okIs (exec .toWords (loaded [1, 2, 3, 4, 5])) [0, 4, 1, 0, 6, 1, 0, 5] 0#32 = true := by decide
theorem test_toWords_pads : okIs (exec .toWords (loaded [0xFF])) [31, 28] 0#32 = true := by decide
/-- F5 in both modes. -/
theorem test_fromWords : okIs (exec (.fromWords false) (loaded [31, 29])) [0xFF] 0#32 = true := by decide
theorem test_fromWords_strict : errIs (exec (.fromWords true) (loaded [31, 29])) 0x19#8 = true := by decide
/-- G11 and G7. -/
theorem test_b58Enc : okIs (exec .b58Enc (loaded [0, 0, 0, 0xFF])) [0x31, 0x31, 0x31, 0x35, 0x51] 0#32 = true := by
  decide
theorem test_b58Enc_carry : okIs (exec .b58Enc (loaded [0x3A])) [0x32, 0x31] 0#32 = true := by decide
/-- H7 and H12. -/
theorem test_b58Dec : okIs (exec .b58Dec (loaded [0x7A, 0x7A])) [0x0D, 0x23] 0#32 = true := by decide
theorem test_b58Dec_badChar : errIs (exec .b58Dec (loaded [0x6C])) 0x20#8 = true := by decide

/-- A digest function whose every digest begins with these four bytes. -/
def digestWith (a b c d : Byte) : List Byte → Vector Byte 32 := fun _ =>
  ⟨#[a, b, c, d] ++ Array.replicate 28 0#8, by simp⟩

/-- C1: version 0x80, no payload, checksum c9 40 39 78 gives `FXjQL6s`. -/
theorem test_b58chkEnc :
    b58Encode (withCheck (digestWith 0xC9 0x40 0x39 0x78) 0x80 []) = [0x46, 0x58, 0x6A, 0x51, 0x4C, 0x36, 0x73] := by
  decide
/-- C2: version 0x00 gives a leading `1`: `1Wh4bh`. -/
theorem test_b58chkEnc_version0 :
    b58Encode (withCheck (digestWith 0x14 0x06 0xE0 0x58) 0x00 []) = [0x31, 0x57, 0x68, 0x34, 0x62, 0x68] := by
  decide

/-! ### The port -/

/-- I7: BAD_CMD before the INLEN check. -/
theorem test_badCmd_before_length :
    errIs (step { unloaded 200 with pending := [.access (.write 0x000#12 4 0#32)] }) 0x01#8 = true := by decide
/-- I8: INLEN = 129. -/
theorem test_inlen_over : errIs (exec .b32Dec (unloaded 129)) 0x02#8 = true := by decide
/-- I9: a write of 0x181 to INLEN stores 0x81. -/
theorem test_inlen_low_byte :
    (match step (facing [wr32 .inlen 0x181#32]) with
      | .next t => t.inlen == 0x81#8
      | _ => false) = true := by decide
/-- I16 to I21. -/
theorem test_bus_errors :
    [Access.read 0x000#12 4, .write 0x008#12 4 0#32, .write 0x00C#12 4 0#32, .write 0x010#12 4 0#32,
      .write 0x014#12 4 0#32, .read 0x004#12 1, .write 0x100#12 4 0#32, .read 0x100#12 2, .write 0x200#12 1 0#32,
      .read 0x002#12 4, .read 0x018#12 4, .read 0x180#12 1, .read 0x300#12 1].all
        (fun a => isBusError (step (facing [.access a]))) = true := by decide
/-- P4, after the error: STATUS reads 0x3. -/
theorem test_status_after_error :
    answered (step (finishError .badChecksum (facing [rd32 .status]))) (.word 0x00000003#32) = true := by decide
/-- I12: OUT+1 beyond OUTLEN reads 0x00. -/
theorem test_out_beyond_outlen :
    answered (step (finishOk [0x61] 1#32 (facing [rd8 1]))) (.byte 0#8) = true := by decide
/-- The word a test puts at the port is the one the next step runs. -/
theorem test_withFetchWord :
    errIs (step (State.reset.withFetchWord 32 0x02)) 0x12#8 = true := by decide

/-! ### Witnesses: a concrete state and operands meeting the hypotheses of each statement that has some -/

/-- `a12uel5l`, a valid bech32 string (B2). -/
def a12uel5l : List Byte := [0x61, 0x31, 0x32, 0x75, 0x65, 0x6C, 0x35, 0x6C]

/-- B5: the valid string of 90 characters `11`, 82 times `q`, `c8247j`. -/
def longest : List Byte := [0x31, 0x31] ++ List.replicate 82 0x71 ++ [0x63, 0x38, 0x32, 0x34, 0x37, 0x6A]

/-- The input sequence of `loaded bs` is `bs`. -/
theorem input_loaded (bs : List Byte) (h : bs.length ≤ 128) : input (loaded bs) = bs := by
  have hl : (loaded bs).inlen.toNat = bs.length := by
    show (BitVec.ofNat 8 bs.length).toNat = bs.length
    rw [BitVec.toNat_ofNat]
    omega
  apply List.ext_getElem
  · rw [length_input, hl]
  · intro k h1 h2
    simp [input, inByte, bufferByte, loaded, Memory.get_setAll_inside _ _ _ _ h2]

/-- The command's next state, for a statement about one. -/
def after (i : Instr) (s : State) : State :=
  match exec i s with
  | .next t => t
  | _ => s

theorem exec_after (i : Instr) (s : State) : exec i s = .next (after i s) := by cases i <;> rfl

theorem witness_EncodeOfDecodeIsTheWord : decode 0x00010011#32 = some (.fromWords true) := by decide

theorem witness_RowsDecideTheWord :
    (∃ r ∈ opRows, 0x00000201#32 &&& r.mask = r.expected) ∧ (∀ r ∈ opRows, 0x00000012#32 &&& r.mask ≠ r.expected) := by
  decide

theorem witness_StepRunsTheDecodedCommand :
    (facing [cmdWrite 0x10#32]).pending = .access (.write 0x000#12 4 0x10#32) :: [] ∧
      decode 0x10#32 = some .toWords := ⟨rfl, by decide⟩

theorem witness_IllegalWordEndsWithBadCmd :
    (facing [cmdWrite 0x12#32]).pending = .access (.write 0x000#12 4 0x12#32) :: [] ∧ ¬ LegalWord 0x12#32 :=
  ⟨rfl, by unfold LegalWord; decide⟩

/-- Just below and above IN, just above OUT, the read of CMD, and a 2-byte access. -/
theorem witness_IllegalAccessIsABusErrorThatChangesNothing :
    ∀ a ∈ [Access.read 0x0FF#12 1, .read 0x180#12 1, .read 0x1FF#12 1, .read 0x300#12 1, .read 0x000#12 4,
      .write 0x0FF#12 1 0#32, .write 0x180#12 1 0#32, .write 0x008#12 4 0#32, .write 0x100#12 2 0#32],
      (facing [.access a]).pending = .access a :: [] ∧ ¬ a.Legal := by
  intro a ha
  refine ⟨rfl, ?_⟩
  simp only [List.mem_cons, List.not_mem_nil, or_false] at ha
  rcases ha with rfl | rfl | rfl | rfl | rfl | rfl | rfl | rfl | rfl <;> simp [Access.Legal]

/-- The first and last bytes of IN and OUT, and registers. -/
theorem witness_LegalAccessIsServed :
    ∀ a ∈ [Access.read 0x100#12 1, .read 0x17F#12 1, .read 0x200#12 1, .read 0x2FF#12 1, .read 0x004#12 4,
      .read 0x014#12 4, .write 0x100#12 1 0#32, .write 0x17F#12 1 0#32, .write 0x000#12 4 0#32, .write 0x004#12 4 0#32],
      (facing [.access a]).pending = .access a :: [] ∧ a.Legal := by
  intro a ha
  refine ⟨rfl, ?_⟩
  simp only [List.mem_cons, List.not_mem_nil, or_false] at ha
  rcases ha with rfl | rfl | rfl | rfl | rfl | rfl | rfl | rfl | rfl | rfl <;> simp [Access.Legal]

theorem witness_RegisterReadAnswersTheRegister :
    ∀ off ∈ [0x004#12, 0x008#12, 0x00C#12, 0x010#12, 0x014#12],
      (facing [.access (.read off 4)]).pending = .access (.read off 4) :: [] := fun _ _ => rfl

theorem witness_InlenWriteStoresTheLowByte :
    (facing [wr32 .inlen 0x181#32]).pending = .access (.write 0x004#12 4 0x181#32) :: [] := rfl

theorem witness_InByteWriteStoresTheByte :
    ∀ i ∈ [0, 127], i < 128 ∧ (facing [wr8 i 7#8]).pending = .access (.write (BitVec.ofNat 12 (0x100 + i)) 1 7#32) :: [] := by
  decide

theorem witness_BufferReadAnswersTheByte :
    (∀ i ∈ [0, 127], i < 128 ∧ (facing [.access (.read (BitVec.ofNat 12 (0x100 + i)) 1)]).pending =
      .access (.read (BitVec.ofNat 12 (0x100 + i)) 1) :: []) ∧
    (∀ i ∈ [0, 255], i < 256 ∧ (facing [rd8 i]).pending = .access (.read (BitVec.ofNat 12 (0x200 + i)) 1) :: []) := by
  decide

theorem witness_ReadsHaveNoSideEffects :
    (facing [rd32 .status]).pending = .access (.read 0x008#12 4) :: [] ∧
      step (facing [rd32 .status]) = .next ((facing [rd32 .status]).served (.word 0#32)) := ⟨rfl, rfl⟩

theorem witness_IdleBlockHoldsItsState : (loaded [1]).pending = [] := rfl

theorem witness_ResetInputLeavesTheResetValues : (facing [.reset]).pending = .reset :: [] := rfl

theorem witness_InByteChangesOnlyByItsWriteOrReset :
    (facing [wr8 3 7#8]).pending = wr8 3 7#8 :: [] ∧ wr8 3 7#8 ≠ .reset ∧
      (∀ v, wr8 3 7#8 ≠ .access (.write (BitVec.ofNat 12 (0x100 + 5)) 1 v)) ∧
      step (facing [wr8 3 7#8]) = .next (writeIn 3 7#8 ((facing [wr8 3 7#8]).served .written)) :=
  ⟨rfl, by decide, by simp [wr8, inStart], rfl⟩

theorem witness_OutcomeStaysUntilNextCommandOrReset :
    (facing [wr8 3 7#8]).pending = wr8 3 7#8 :: [] ∧ wr8 3 7#8 ≠ .reset ∧
      (∀ v, wr8 3 7#8 ≠ .access (.write 0x000#12 4 v)) ∧
      step (facing [wr8 3 7#8]) = .next (writeIn 3 7#8 ((facing [wr8 3 7#8]).served .written)) :=
  ⟨rfl, by decide, by simp [wr8], rfl⟩

theorem witness_DoneStaysUntilReset :
    let s := finishError .noSep (facing [cmdWrite 0#32])
    s.done = true ∧ (∀ rest, s.pending ≠ .reset :: rest) ∧ step s = .next (finishError .badCmd (s.served .written)) :=
  ⟨rfl, by simp [facing, cmdWrite], rfl⟩

theorem witness_StepKeepsTheInvariant :
    let s : State := { State.reset with done := true, result := 1#32, pending := [rd32 .result] }
    s.Inv ∧ step s = .next (s.served (.word 1#32)) := by
  refine ⟨?_, rfl⟩
  constructor <;> simp [State.reset, Memory.InBuffers, errorCodes]

theorem witness_SafeInputsNeverStopARun : (facing [cmdWrite 0x3#32, .reset, wr8 127 0#8]).SafeInputs := by
  intro inp hi
  simp only [facing, List.mem_cons, List.not_mem_nil, or_false] at hi
  rcases hi with rfl | rfl | rfl <;> simp [Input.Legal, Access.Legal, cmdWrite, wr8, inStart]

/-- CommandsWriteOnlyTheirOutputs and CommandsReportOnlyTheirCodes: a command that succeeds and one that fails. -/
theorem witness_CommandsWriteOnlyTheirOutputs :
    exec .toWords (loaded [0xFF]) = .next (after .toWords (loaded [0xFF])) ∧
      exec .b32Polymod (loaded [32]) = .next (after .b32Polymod (loaded [32])) ∧
      (after .b32Polymod (loaded [32])).err = true := ⟨rfl, rfl, by decide⟩

theorem witness_ErrorsArePreciseAndHideOutput :
    exec .b32Polymod (loaded [32]) = .next (after .b32Polymod (loaded [32])) ∧
      (after .b32Polymod (loaded [32])).err = true := ⟨rfl, by decide⟩

theorem witness_OutcomeDependsOnlyOnInputAndWord :
    let s := { loaded [5] with pending := [cmdWrite 0x3#32] }
    let u := { loaded [5] with pending := [cmdWrite 0x3#32, .reset], outlen := 7#9 }
    s.pending = .access (.write 0x000#12 4 0x3#32) :: [] ∧ u.pending = .access (.write 0x000#12 4 0x3#32) :: [.reset] ∧
      s.inlen = u.inlen ∧ (∀ k, k < s.inlen.toNat → k < 128 → inByte s k = inByte u k) ∧
      step s = .next (after .b32Polymod (s.served .written)) ∧ step u = .next (after .b32Polymod (u.served .written)) :=
  ⟨rfl, rfl, rfl, fun _ _ _ => rfl, rfl, rfl⟩

/-- The three places of R201. -/
theorem witness_LengthIsRaisedInExactlyThreePlaces :
    128 < (unloaded 129).inlen.toNat ∧ (unloaded 128).inlen.toNat = 128 ∧
      (loaded [0x61]).inlen.toNat < (2#8).toNat ∧
      exec .b32Hrpexp (unloaded 128) = .next (after .b32Hrpexp (unloaded 128)) := ⟨by decide, by decide, by decide, rfl⟩

theorem witness_OverlongInlenEndsWithLength : 128 < (unloaded 129).inlen.toNat ∧ 128 < (unloaded 255).inlen.toNat := by
  decide

theorem witness_CharacterClasses : 0x80 ≤ (0x80#8).toNat := by decide

theorem witness_CharsetAndItsIndex : inCharset 0x71#8 = true ∧ isAlnum 0x62#8 = true := by decide

theorem witness_AlphabetAndItsDigits : inAlphabet 0x7A#8 = true ∧ (56 < 57 ∧ 57 < 58) := by decide

/-- B32EncFollowsItsRule: LENGTH and EMPTY_HRP. -/
theorem witness_B32Enc_length_empty :
    (loaded [0x61]).inlen.toNat ≤ 128 ∧ (loaded [0x61]).inlen.toNat < (2#8).toNat ∧ (0#8).toNat ≤ (loaded []).inlen.toNat := by
  decide

/-- BAD_CHAR (E12), then BAD_WORD (E14). -/
theorem witness_B32Enc_badChar_badWord :
    (∃ c ∈ (input (loaded [0x61, 0x2D])).take 2, isAlnum c = false) ∧
      (∀ c ∈ (input (loaded [0x61, 32])).take 1, isAlnum c = true) ∧ ¬ AllWords ((input (loaded [0x61, 32])).drop 1) := by
  unfold AllWords; decide

/-- TOO_LONG at 91 characters (E9). -/
theorem witness_B32Enc_tooLong :
    let s := loaded (0x61#8 :: List.replicate 83 0#8)
    s.inlen.toNat ≤ 128 ∧ (∀ c ∈ (input s).take 1, isAlnum c = true) ∧ AllWords ((input s).drop 1) ∧
      90 < 1 + 1 + ((input s).drop 1).length + 6 := by
  unfold AllWords
  dsimp only
  rw [input_loaded _ (by simp)]
  decide

/-- Success at 90 characters (E8). -/
theorem witness_B32Enc_longest :
    let s := loaded (0x61#8 :: List.replicate 82 0#8)
    s.inlen.toNat ≤ 128 ∧ (∀ c ∈ (input s).take 1, isAlnum c = true) ∧ AllWords ((input s).drop 1) ∧
      1 + 1 + ((input s).drop 1).length + 6 ≤ 90 := by
  unfold AllWords
  dsimp only
  rw [input_loaded _ (by simp)]
  decide

/-- Success with no words (E1). -/
theorem witness_B32Enc_no_words :
    (∀ c ∈ (input (loaded [0x61])).take 1, isAlnum c = true) ∧ AllWords ((input (loaded [0x61])).drop 1) := by
  unfold AllWords; decide

/-- The place of the last separator in the lowercased input of `loaded bs`. -/
theorem lastOne_of {bs : List Byte} {p : Nat} (h : lastIndexOf separator (bs.map toLower) = some p) :
    LastOne (bs.map toLower) p := (lastIndexOf_eq_some_iff _ _ _).mp h

/-- B32DecFollowsItsRule: BAD_CHAR, MIXED_CASE, NO_SEP. -/
theorem witness_B32Dec_first_three :
    (∃ c ∈ input (loaded [0x61, 0x2D]), isAlnum c = false) ∧
      ((∀ c ∈ input (loaded [0x61, 0x42]), isAlnum c = true) ∧ Mixed (input (loaded [0x61, 0x42]))) ∧
      ((∀ c ∈ input (loaded []), isAlnum c = true) ∧ ¬ Mixed (input (loaded [])) ∧
        0x31#8 ∉ (input (loaded [])).map toLower) := by
  unfold Mixed; decide

/-- EMPTY_HRP (B23 `10a06t8`). -/
theorem witness_B32Dec_empty :
    let s := loaded [0x31, 0x30, 0x61, 0x30, 0x36, 0x74, 0x38]
    (∀ c ∈ input s, isAlnum c = true) ∧ ¬ Mixed (input s) ∧ LastOne ((input s).map toLower) 0 := by
  unfold Mixed
  dsimp only
  rw [input_loaded _ (by simp)]
  exact ⟨by decide, by decide, lastOne_of (by decide)⟩

/-- SHORT_DATA (D2 `a1qqqqq`). -/
theorem witness_B32Dec_short :
    let s := loaded [0x61, 0x31, 0x71, 0x71, 0x71, 0x71, 0x71]
    (∀ c ∈ input s, isAlnum c = true) ∧ ¬ Mixed (input s) ∧ LastOne ((input s).map toLower) 1 ∧
      (((input s).map toLower).drop 2).length < 6 := by
  unfold Mixed
  dsimp only
  rw [input_loaded _ (by simp)]
  exact ⟨by decide, by decide, lastOne_of (by decide), by decide⟩

/-- TOO_LONG at 91 characters (D4). -/
theorem witness_B32Dec_tooLong :
    let s := loaded ([0x61, 0x31] ++ List.replicate 89 0x71)
    s.inlen.toNat ≤ 128 ∧ (∀ c ∈ input s, isAlnum c = true) ∧ ¬ Mixed (input s) ∧
      LastOne ((input s).map toLower) 1 ∧ 6 ≤ (((input s).map toLower).drop 2).length ∧ 90 < s.inlen.toNat := by
  unfold Mixed
  dsimp only
  rw [input_loaded _ (by simp)]
  exact ⟨by decide, by decide +kernel, by decide +kernel, lastOne_of (by decide +kernel), by decide +kernel, by decide⟩

/-- BAD_DATA_CHAR (U6 `a1buel5l`). -/
theorem witness_B32Dec_badDataChar :
    let s := loaded (a12uel5l.set 2 0x62)
    (∀ c ∈ input s, isAlnum c = true) ∧ ¬ Mixed (input s) ∧ LastOne ((input s).map toLower) 1 ∧
      ∃ c ∈ ((input s).map toLower).drop 2, inCharset c = false := by
  unfold Mixed
  dsimp only
  rw [input_loaded _ (by decide)]
  exact ⟨by decide, by decide, lastOne_of (by decide), by decide⟩

/-- What the last clauses of B32DecFollowsItsRule ask of a string with its separator at index 1. -/
def DecodableUpToChecksum (bs : List Byte) : Prop :=
  bs.length ≤ 90 ∧ (∀ c ∈ bs, isAlnum c = true) ∧ ¬ Mixed bs ∧ LastOne (bs.map toLower) 1 ∧
    6 ≤ ((bs.map toLower).drop 2).length ∧ ∀ c ∈ (bs.map toLower).drop 2, inCharset c = true

/-- The polymod R119 compares with 1. -/
def verified (bs : List Byte) : Checksum :=
  polymod (hrpExpand ((bs.map toLower).take 1) ++ ((bs.map toLower).drop 2).map charsetIndex)

/-- BAD_CHECKSUM (U1 `a1quel5l`). -/
theorem witness_B32Dec_badChecksum :
    let s := loaded (a12uel5l.set 2 0x71)
    DecodableUpToChecksum (input s) ∧ verified (input s) ≠ 1#30 := by
  unfold DecodableUpToChecksum Mixed
  dsimp only
  rw [input_loaded _ (by decide)]
  exact ⟨⟨by decide, by decide, by decide, lastOne_of (by decide), by decide, by decide⟩, by decide +kernel⟩

/-- Success at 8 characters (B2). -/
theorem witness_B32Dec_shortest :
    DecodableUpToChecksum (input (loaded a12uel5l)) ∧ verified (input (loaded a12uel5l)) = 1#30 := by
  unfold DecodableUpToChecksum Mixed
  rw [input_loaded _ (by decide)]
  exact ⟨⟨by decide, by decide, by decide, lastOne_of (by decide), by decide, by decide⟩, by decide +kernel⟩

/-- Success at 90 characters, the HRP itself `1` (B5). -/
theorem witness_B32Dec_longest :
    DecodableUpToChecksum (input (loaded longest)) ∧ verified (input (loaded longest)) = 1#30 := by
  unfold DecodableUpToChecksum Mixed
  rw [input_loaded _ (by decide)]
  exact ⟨⟨by decide, by decide +kernel, by decide +kernel, lastOne_of (by decide +kernel), by decide,
    by decide +kernel⟩, by decide +kernel⟩

theorem witness_B32PolymodFollowsItsRule : ¬ AllWords (input (loaded [32])) ∧ AllWords (input (loaded [31])) := by
  unfold AllWords; decide

theorem witness_B32HrpexpFollowsItsRule : (unloaded 127).inlen.toNat < 128 ∧ (unloaded 128).inlen.toNat = 128 := by
  decide

theorem witness_DecodedOutputShape :
    exec .b32Dec (loaded a12uel5l) = .next (after .b32Dec (loaded a12uel5l)) ∧
      (after .b32Dec (loaded a12uel5l)).err = false := ⟨rfl, by decide +kernel⟩

theorem witness_CaseOfTheWholeStringDoesNotMatter :
    let s := loaded [0x41, 0x31, 0x32, 0x55, 0x45, 0x4C, 0x35, 0x4C]
    ¬ Mixed (input s) ∧ input (loaded a12uel5l) = (input s).map toLower ∧ exec .b32Dec s = .next (after .b32Dec s) := by
  unfold Mixed; exact ⟨by decide, by decide, rfl⟩

theorem witness_EncodeAndDecodeRoundTrip :
    (after (.b32Enc 1#8) (loaded [0x61])).err = false ∧
      input (loaded a12uel5l) = outputs (after (.b32Enc 1#8) (loaded [0x61])) ∧
      (after .b32Dec (loaded a12uel5l)).err = false ∧
      input (loaded [0x61]) = outputs (after .b32Dec (loaded a12uel5l)) ∧
      (1#8).toNat = (after .b32Dec (loaded a12uel5l)).result.toNat := by
  decide +kernel

/-- SingleSubstitutionIsDetected: U5, U3, U1, U6, U8 at index 2, U2 at index 7. -/
theorem witness_SingleSubstitutionIsDetected :
    (after .b32Dec (loaded a12uel5l)).err = false ∧ (after .b32Dec (loaded a12uel5l)).result.toNat < 2 ∧
      (∀ c ∈ [0x2D#8, 0x41#8, 0x71#8, 0x62#8, 0x31#8],
        input (loaded (a12uel5l.set 2 c)) = (input (loaded a12uel5l)).set 2 c ∧
          toLower c ≠ toLower (inByte (loaded a12uel5l) 2)) ∧
      toLower 0x71#8 ≠ toLower (inByte (loaded a12uel5l) 7) := by
  decide +kernel

theorem witness_SingleSubstitution_clauses :
    isAlnum 0x2D#8 = false ∧ (isAlnum 0x41#8 = true ∧ Mixed (input (loaded (a12uel5l.set 2 0x41)))) ∧
      (∀ c ∈ [0x71#8, 0x62#8, 0x31#8], isAlnum c = true ∧ ¬ Mixed (input (loaded (a12uel5l.set 2 c)))) ∧
      inCharset (toLower 0x71#8) = true ∧ inCharset (toLower 0x62#8) = false ∧
      (loaded a12uel5l).inlen.toNat - 2 - 1 < 6 := by
  unfold Mixed; decide +kernel

/-- CaseOfTheOnlyLetterIsNotDetected: the two strings of log 13, the second being the first with its only letter in the
other case, so that both cases do not occur in it. -/
theorem witness_CaseOfTheOnlyLetterIsNotDetected :
    let bs := [0x30#8, 0x31#8, 0x38#8, 0x32#8, 0x32#8, 0x35#8, 0x37#8, 0x30#8, 0x65#8, 0x30#8]
    input (loaded bs) = bs ∧ (after .b32Dec (loaded bs)).err = false ∧ 8 < (loaded bs).inlen.toNat ∧
      input (loaded (bs.set 8 0x45#8)) = (input (loaded bs)).set 8 0x45#8 ∧
      toLower 0x45#8 = toLower (inByte (loaded bs) 8) ∧ 0x45#8 ≠ inByte (loaded bs) 8 ∧
      ¬ Mixed (input (loaded (bs.set 8 0x45#8))) := by
  unfold Mixed; decide +kernel

/-- CaseOfTheOnlyLetterIsNotDetected: `A12uel5l`, where other letters show the first case. -/
theorem witness_CaseOfTheOnlyLetter_mixed :
    (after .b32Dec (loaded a12uel5l)).err = false ∧ 0 < (loaded a12uel5l).inlen.toNat ∧
      input (loaded (a12uel5l.set 0 0x41#8)) = (input (loaded a12uel5l)).set 0 0x41#8 ∧
      toLower 0x41#8 = toLower (inByte (loaded a12uel5l) 0) ∧ Mixed (input (loaded (a12uel5l.set 0 0x41#8))) := by
  unfold Mixed; decide +kernel

theorem witness_ToWordsFollowsItsRule : (unloaded 128).inlen.toNat ≤ 128 ∧ (unloaded 0).inlen.toNat ≤ 128 := by decide

/-- FromWordsFollowsItsRule: BAD_WORD (F10), the two strict errors (F2, F5), and success in each mode (F5, F4). -/
theorem witness_FromWordsFollowsItsRule :
    ¬ AllWords (input (loaded [32])) ∧
      (AllWords (input (loaded [0])) ∧ 5 ≤ ((bitStream 5 (wordsIn (input (loaded [0])))).drop 0).length) ∧
      (AllWords (input (loaded [31, 29])) ∧ true ∈ (bitStream 5 (wordsIn (input (loaded [31, 29])))).drop 8) ∧
      (AllWords (input (loaded [31, 28])) ∧
        ((bitStream 5 (wordsIn (input (loaded [31, 28])))).drop 8).length < 5 ∧
        true ∉ (bitStream 5 (wordsIn (input (loaded [31, 28])))).drop 8) := by
  unfold AllWords; decide +kernel

theorem witness_ReverseRegroupExactlyWhenStrictPasses :
    fromWordsOf [31#5, 28#5] false = some [0xFF#8] ∧ fromWordsOf [31#5, 29#5] false = some [0xFF#8] := by decide

theorem witness_Base58DecodingIsMinimal :
    (∃ c ∈ [0x31#8, 0x30#8], inAlphabet c = false) ∧ (∀ c ∈ [0x31#8, 0x7A#8], inAlphabet c = true) := by decide

theorem witness_Base58Bijection : ∀ c ∈ [0x31#8, 0x7A#8], inAlphabet c = true := by decide

theorem witness_B58EncFollowsItsRule : (unloaded 128).inlen.toNat ≤ 128 ∧ (unloaded 0).inlen.toNat ≤ 128 := by decide

theorem witness_B58DecFollowsItsRule :
    (∃ c ∈ input (loaded [0x31, 0x30]), inAlphabet c = false) ∧ (∀ c ∈ input (loaded [0x31, 0x7A]), inAlphabet c = true) := by
  decide

theorem witness_B58chkEncFollowsItsRule : (unloaded 128).inlen.toNat ≤ 128 ∧ (unloaded 0).inlen.toNat ≤ 128 := by decide

/-- HostNotationIsTheAccessesOfTheTable: a range that is empty, one that is not, and R80's expansions on examples. -/
theorem witness_HostNotationIsTheAccessesOfTheTable :
    6 ≤ 6 ∧ 4 < 6 ∧ load 3 [0x62#8, 0x63#8] = [wr8 3 0x62#8, wr8 4 0x63#8] ∧ fetch 4 6 = [rd8 4, rd8 5] := by decide

theorem witness_CommandProtocolRunsOnTheLoadedBytes :
    let bs := List.replicate 128 0x31#8
    bs.length ≤ 128 ∧ (facing (load 0 bs ++ [setlen bs.length, cmd .b58Dec] ++ [.reset])).pending =
      load 0 bs ++ [setlen bs.length, cmd .b58Dec] ++ [.reset] := ⟨by simp, rfl⟩

end Sys2Proof.Tests
end

/-! ## Proofs of the family 00_scope.md: the window's place (R10, R50) and the character classes (R16) -/

namespace Sys2Proof.Machine

/-- R50: below the window's size an offset is its number. -/
theorem ofNat_eq_offset_iff {n : Nat} (h : n < Config.windowSize) (off : Offset) :
    BitVec.ofNat 12 n = off ↔ n = off.toNat := by
  rw [← BitVec.toNat_inj, BitVec.toNat_ofNat, Nat.mod_eq_of_lt h]

/-- R10, R50: the window holds exactly the addresses from BASE on, each at its distance from BASE. -/
theorem windowOffset_eq_some_iff (addr : Nat) (off : Offset) :
    windowOffset addr = some off ↔ addr = Config.base + off.toNat := by
  have hoff : off.toNat < Config.windowSize := off.isLt
  unfold windowOffset
  split
  next hin =>
    have hdist : addr - Config.base < Config.windowSize := by omega
    rw [Option.some_inj, ofNat_eq_offset_iff hdist]
    omega
  next hout =>
    have hne : addr ≠ Config.base + off.toNat := by omega
    simp [hne]

/-- R10: BASE is a multiple of the window's size. -/
theorem windowSize_dvd_base : Config.windowSize ∣ Config.base := Nat.dvd_mul_right _ _

theorem isDigit_iff (c : Byte) : isDigit c = true ↔ 0x30 ≤ c.toNat ∧ c.toNat ≤ 0x39 := by
  simp [isDigit, BitVec.le_def]

theorem isUpper_iff (c : Byte) : isUpper c = true ↔ 0x41 ≤ c.toNat ∧ c.toNat ≤ 0x5A := by
  simp [isUpper, BitVec.le_def]

theorem isLower_iff (c : Byte) : isLower c = true ↔ 0x61 ≤ c.toNat ∧ c.toNat ≤ 0x7A := by
  simp [isLower, BitVec.le_def]

theorem isAlnum_iff (c : Byte) :
    isAlnum c = true ↔ isDigit c = true ∨ isUpper c = true ∨ isLower c = true := by
  simp [isAlnum, or_assoc]

/-- R16: lowering an uppercase letter never carries out of the byte. -/
theorem toNat_toLower (c : Byte) : (toLower c).toNat = if isUpper c then c.toNat + 0x20 else c.toNat := by
  unfold toLower
  split
  next hup =>
    have hle : c.toNat ≤ 0x5A := ((isUpper_iff c).mp hup).2
    rw [BitVec.toNat_add, BitVec.toNat_ofNat]
    omega
  next => rfl

/-- R16: an alphanumeric character is a 7-bit code. -/
theorem toNat_lt_of_isAlnum {c : Byte} (h : isAlnum c = true) : c.toNat < 0x80 := by
  obtain hd | hu | hl := (isAlnum_iff c).mp h
  · have hr := (isDigit_iff c).mp hd
    omega
  · have hr := (isUpper_iff c).mp hu
    omega
  · have hr := (isLower_iff c).mp hl
    omega

/-- R16: every byte of 0x80..0xFF is outside every class. -/
theorem isAlnum_eq_false_of_ge {c : Byte} (h : 0x80 ≤ c.toNat) : isAlnum c = false :=
  Bool.eq_false_iff.mpr fun halnum => absurd (toNat_lt_of_isAlnum halnum) (Nat.not_lt.mpr h)

end Sys2Proof.Machine

namespace Sys2Proof.Proofs

open Sys2Proof.Machine

/-- Settles O25: BASE is a page times the window's size, and an address in the window is BASE plus its offset. -/
theorem windowStandsAtBase : Obligations.WindowStandsAtBase :=
  ⟨windowSize_dvd_base, windowOffset_eq_some_iff⟩

/-- Settles O33, from one lemma per class and the two facts about uppercase letters and 7-bit codes. -/
theorem characterClasses : Obligations.CharacterClasses := fun c =>
  ⟨isDigit_iff c, isUpper_iff c, isLower_iff c, isAlnum_iff c, toNat_toLower c, isAlnum_eq_false_of_ge⟩

end Sys2Proof.Proofs

/-! ## Proofs of the family 10_state.md: the port's accesses, the commands' outcomes and the invariant of the state -/

namespace Sys2Proof.Machine

/-! ### One access at the port -/

/-- R61: what the port leaves after the oldest input is served. -/
theorem served_eq {s : State} {inp : Input} {rest : List Input} (h : s.pending = inp :: rest) (r : Response) :
    s.served r = { s with pending := rest, response := r } := by
  simp [State.served, h]

/-! The layout of the window (R23): IN's bytes stand below OUT's, and no offset is of both. -/

theorem isInOffset_iff_exists (a : Nat) : isInOffset a = true ↔ ∃ i < Config.inSize, a = inStart + i := by
  rw [isInOffset_iff]
  constructor
  · rintro ⟨hlo, hhi⟩
    exact ⟨a - inStart, by simp only [Config.inSize, inStart]; omega, by simp only [inStart]; omega⟩
  · rintro ⟨i, hi, rfl⟩
    exact ⟨Nat.le_add_right _ _, Nat.add_lt_add_left hi inStart⟩

theorem isInOffset_inStart_add {i : Nat} (hi : i < Config.inSize) : isInOffset (inStart + i) = true :=
  (isInOffset_iff_exists _).mpr ⟨i, hi, rfl⟩

theorem isOutOffset_outStart_add {i : Nat} (hi : i < Config.outSize) : isOutOffset (outStart + i) = true :=
  (isOutOffset_iff _).mpr ⟨Nat.le_add_right _ _, Nat.add_lt_add_left hi outStart⟩

theorem inStart_add_lt_outStart {i : Nat} (hi : i < Config.inSize) : inStart + i < outStart :=
  Nat.lt_trans (Nat.add_lt_add_left hi inStart) (by decide)

theorem isInOffset_outStart_add (i : Nat) : isInOffset (outStart + i) = false := by
  rw [Bool.eq_false_iff, Ne, isInOffset_iff_exists]
  rintro ⟨j, hj, heq⟩
  have hlt := inStart_add_lt_outStart hj
  omega

theorem toNat_inOffset {i : Nat} (hi : i < Config.inSize) : (BitVec.ofNat 12 (inStart + i)).toNat = inStart + i :=
  Nat.mod_eq_of_lt (Nat.lt_trans (inStart_add_lt_outStart hi) (by decide))

theorem toNat_outOffset {i : Nat} (hi : i < Config.outSize) :
    (BitVec.ofNat 12 (outStart + i)).toNat = outStart + i :=
  Nat.mod_eq_of_lt (Nat.lt_trans (Nat.add_lt_add_left hi outStart) (by decide))

/-! What a step does for each access of R51. -/

/-- R24: the 4-byte write at offset 0 is the CMD write. -/
theorem step_write_cmd {s : State} {w : Word} {rest : List Input}
    (h : s.pending = .access (.write 0x000#12 4 w) :: rest) : step s = writeCmd w (s.served .written) := by
  rw [step_of_pending_cons h]
  rfl

theorem step_write_inlen {s : State} {v : Word} {rest : List Input}
    (h : s.pending = .access (.write 0x004#12 4 v) :: rest) :
    step s = .next (writeInlen v (s.served .written)) := by
  rw [step_of_pending_cons h]
  rfl

theorem step_write_in {s : State} {i : Nat} {v : Word} {rest : List Input} (hi : i < Config.inSize)
    (h : s.pending = .access (.write (BitVec.ofNat 12 (inStart + i)) 1 v) :: rest) :
    step s = .next (writeIn i (v.setWidth 8) (s.served .written)) := by
  simp [step_of_pending_cons h, takeInput, serve, portWriteByte, toNat_inOffset hi, isInOffset_inStart_add hi]

/-- R51, R58: a 4-byte read of a readable register answers its value. -/
theorem step_read_reg {s : State} {off : Offset} {r : Reg} {v : Word} {rest : List Input}
    (h : s.pending = .access (.read off 4) :: rest) (hoff : regAt off = some r) (hv : readReg r s = some v) :
    step s = .next { s with pending := rest, response := .word v } := by
  simp [step_of_pending_cons h, takeInput, serve, portReadReg, hoff, hv, served_eq h]

theorem step_read_in {s : State} {i : Nat} {rest : List Input} (hi : i < Config.inSize)
    (h : s.pending = .access (.read (BitVec.ofNat 12 (inStart + i)) 1) :: rest) :
    step s = .next { s with pending := rest, response := .byte (inByte s i) } := by
  simp [step_of_pending_cons h, takeInput, serve, portReadByte, toNat_inOffset hi, isInOffset_inStart_add hi,
    served_eq h]

theorem step_read_out {s : State} {i : Nat} {rest : List Input} (hi : i < Config.outSize)
    (h : s.pending = .access (.read (BitVec.ofNat 12 (outStart + i)) 1) :: rest) :
    step s = .next { s with pending := rest, response := .byte (outByte s i) } := by
  simp [step_of_pending_cons h, takeInput, serve, portReadByte, toNat_outOffset hi, isInOffset_outStart_add,
    isOutOffset_outStart_add hi, served_eq h]

/-- R25, R27, R28: a register narrower than a word reads with its reserved bits 0. -/
theorem zero_append_eq_setWidth {n w : Nat} (x : BitVec w) : 0#n ++ x = x.setWidth (n + w) := by
  apply BitVec.eq_of_toNat_eq
  rw [BitVec.toNat_append, BitVec.toNat_setWidth_of_le (by omega)]
  simp

/-- R26: STATUS as a row of bits. -/
theorem statusWord_eq_append (done err : Bool) :
    statusWord done err = 0#30 ++ BitVec.ofBool err ++ BitVec.ofBool done := by
  cases done <;> cases err <;> rfl

/-- R25: the stored byte of a word reads back as the word with bits 31:8 cleared. -/
theorem setWidth_setWidth_eq_and (v : Word) : (v.setWidth 8).setWidth 32 = v &&& 0x000000FF#32 := by
  have hmask : v.toNat &&& 0xFF = v.toNat % 0x100 := Nat.and_two_pow_sub_one_eq_mod v.toNat 8
  apply BitVec.eq_of_toNat_eq
  rw [BitVec.toNat_setWidth_of_le (by decide), BitVec.toNat_setWidth, BitVec.toNat_and]
  exact hmask.symm

/-! ### The outcome of a command -/

/-- R76: everything a command can do. -/
theorem exec_cases {i : Instr} {s t : State} (h : exec i s = .next t) :
    (∃ out v, commandFn i (input s) = .ok out v ∧ out.length ≤ Config.outSize ∧ t = finishOk out v s) ∨
    (∃ code, t = finishError code s) := by
  obtain rfl : runCommand (commandFn i) s = t := by simpa [exec_eq_runCommand] using h
  obtain ⟨out, v, -, hf, hlen, hrun⟩ | ⟨code, hrun, -⟩ := runCommand_cases (commandFn i) s
  · exact .inl ⟨out, v, hf, hlen, hrun⟩
  · exact .inr ⟨code, hrun⟩

/-- R24, R75: everything a CMD write can do. -/
theorem writeCmd_cases {w : Word} {s t : State} (h : writeCmd w s = .next t) :
    (∃ i out v, commandFn i (input s) = .ok out v ∧ out.length ≤ Config.outSize ∧ t = finishOk out v s) ∨
    (∃ code, t = finishError code s) := by
  unfold writeCmd at h
  split at h
  next i _ =>
    obtain ⟨out, v, hok⟩ | herr := exec_cases h
    · exact .inl ⟨i, out, v, hok⟩
    · exact .inr herr
  next => exact .inr ⟨.badCmd, by simpa using h.symm⟩

/-- R51: what each access that is served does to the block: a read nothing, the CMD write what `writeCmd` does, the
other two writes the storing of a value. -/
theorem serve_effects {a : Access} {s t : State} (h : serve a s = .next t) :
    (∃ off width r, a = .read off width ∧ t = s.served r) ∨
    (∃ w, a = .write 0x000#12 4 w ∧ writeCmd w (s.served .written) = .next t) ∨
    (∃ w, a = .write 0x004#12 4 w ∧ t = writeInlen w (s.served .written)) ∨
    (∃ i w, i < Config.inSize ∧ a = .write (BitVec.ofNat 12 (inStart + i)) 1 w ∧
      t = writeIn i (w.setWidth 8) (s.served .written)) := by
  obtain ⟨off, _, w, ha, -, rfl, ht⟩ | ⟨off, ha, -, ht⟩ | ⟨off, ha, -, -, ht⟩ | ⟨off, w, ha, hr, hw⟩ |
    ⟨off, w, ha, hr, ht⟩ | ⟨off, w, ha, hin, ht⟩ := serve_cases h
  · exact .inl ⟨off, 4, _, ha, ht⟩
  · exact .inl ⟨off, 1, _, ha, ht⟩
  · exact .inl ⟨off, 1, _, ha, ht⟩
  · obtain rfl : off = 0x000#12 := by simpa using (regAt_eq_some_iff off .cmd).mp hr
    exact .inr (.inl ⟨w, ha, hw⟩)
  · obtain rfl : off = 0x004#12 := by simpa using (regAt_eq_some_iff off .inlen).mp hr
    exact .inr (.inr (.inl ⟨w, ha, ht⟩))
  · obtain ⟨i, hi, hoff⟩ := (isInOffset_iff_exists _).mp hin
    have hofNat : BitVec.ofNat 12 (inStart + i) = off := by rw [← hoff, BitVec.ofNat_toNat, BitVec.setWidth_eq]
    refine .inr (.inr (.inr ⟨i, w, hi, by rw [hofNat, ha], ?_⟩))
    rw [ht, hoff, Nat.add_sub_cancel_left]

/-- R28: OUTLEN's nine bits hold the length of every output that fits OUT. -/
theorem toNat_outlen_finishOk {out : List Byte} (h : out.length ≤ Config.outSize) (r : Word) (s : State) :
    (finishOk out r s).outlen.toNat = out.length := by
  rw [finishOk_outlen, BitVec.toNat_ofNat, Nat.mod_eq_of_lt (Nat.lt_of_le_of_lt h (by decide))]

/-- R31: after a success OUT shows the output, and 0x00 from its end on. -/
theorem outByte_finishOk {out : List Byte} (h : out.length ≤ Config.outSize) (r : Word) (s : State) (k : Nat) :
    outByte (finishOk out r s) k = out.getD k 0x00#8 := by
  unfold outByte
  rw [toNat_outlen_finishOk h]
  split
  next hk => rw [bufferByte_finishOk_inside _ _ _ _ hk, List.getD_eq_getElem _ _ hk]
  next hk => rw [List.getD_eq_default _ _ (Nat.le_of_not_lt hk)]

/-- R200: no error has the code of success. -/
theorem ErrCode.code_ne_zero (code : ErrCode) : code.code ≠ 0x00#8 := by
  cases code <;> decide

theorem ErrCode.code_mem_errorCodes (code : ErrCode) : code.code ∈ errorCodes := by
  cases code <;> decide

/-- R238: no command changes a byte of IN. -/
theorem inByte_writeCmd {w : Word} {s t : State} (h : writeCmd w s = .next t) {i : Nat} (hi : i < Config.inSize) :
    inByte t i = inByte s i := by
  obtain ⟨_, out, v, -, -, rfl⟩ | ⟨code, rfl⟩ := writeCmd_cases h
  · exact bufferByte_finishOk_outside _ _ _ (.inl (inStart_add_lt_outStart hi))
  · exact bufferByte_finishError ..

/-- R26: every command sets DONE. -/
theorem done_writeCmd {w : Word} {s t : State} (h : writeCmd w s = .next t) : t.done = true := by
  obtain ⟨_, out, v, -, -, rfl⟩ | ⟨code, rfl⟩ := writeCmd_cases h
  · exact finishOk_done ..
  · exact finishError_done ..

/-- R203: what an error writes, and what it leaves. -/
theorem errorEffect_finishError (code : ErrCode) (s : State) :
    Stated.ErrorEffect s (finishError code s) code.code where
  outlen   := rfl
  reads    := outByte_finishError code s
  result   := rfl
  errcode  := rfl
  done     := rfl
  err      := rfl
  inlen    := rfl
  bytes    := bufferByte_finishError code s
  pending  := rfl
  response := rfl
  resets   := rfl

/-- R204 (2): above IN_SIZE the command function is not asked. -/
theorem runCommand_of_overlong {s : State} (h : Config.inSize < s.inlen.toNat) (f : List Byte → CmdResult) :
    runCommand f s = finishError .length s := if_pos h

/-! ### What the outcome of a command depends on -/

theorem sameOutcome_finishError (code : ErrCode) (s u : State) :
    Stated.SameOutcome (finishError code s) (finishError code u) :=
  ⟨rfl, rfl, rfl, rfl, rfl, fun k => by rw [outByte_finishError, outByte_finishError]⟩

theorem sameOutcome_finishOk {out : List Byte} (h : out.length ≤ Config.outSize) (r : Word) (s u : State) :
    Stated.SameOutcome (finishOk out r s) (finishOk out r u) :=
  ⟨rfl, rfl, rfl, rfl, rfl, fun k => by rw [outByte_finishOk h, outByte_finishOk h]⟩

theorem sameOutcome_complete (r : CmdResult) (s u : State) : Stated.SameOutcome (complete r s) (complete r u) := by
  cases r with
  | error code => exact sameOutcome_finishError code s u
  | ok out v =>
    simp only [complete]
    split
    next => exact sameOutcome_finishError .length s u
    next hlen => exact sameOutcome_finishOk (Nat.le_of_not_lt hlen) v s u

/-- R73: the input sequence is INLEN and the bytes below it. -/
theorem input_congr {s u : State} (hlen : s.inlen = u.inlen) (h : ∀ k < s.inlen.toNat, inByte s k = inByte u k) :
    input s = input u := by
  unfold input
  rw [← hlen]
  exact List.map_congr_left fun k hk => h k (List.mem_range.mp hk)

/-- R34: a command's outcome depends on INLEN and, where INLEN is at most IN_SIZE, on the input sequence. -/
theorem sameOutcome_runCommand (f : List Byte → CmdResult) {s u : State} (hlen : s.inlen = u.inlen)
    (h : s.inlen.toNat ≤ Config.inSize → input s = input u) :
    Stated.SameOutcome (runCommand f s) (runCommand f u) := by
  by_cases hover : Config.inSize < s.inlen.toNat
  · rw [runCommand_of_overlong hover, runCommand_of_overlong (hlen ▸ hover)]
    exact sameOutcome_finishError .length s u
  · have hin : input s = input u := h (Nat.le_of_not_lt hover)
    unfold runCommand
    rw [if_neg hover, if_neg (hlen ▸ hover), hin]
    exact sameOutcome_complete _ s u

theorem sameOutcome_writeCmd {w : Word} {s u s' u' : State} (hlen : s.inlen = u.inlen)
    (h : s.inlen.toNat ≤ Config.inSize → input s = input u)
    (hs : writeCmd w s = .next s') (hu : writeCmd w u = .next u') : Stated.SameOutcome s' u' := by
  rw [writeCmd_eq] at hs hu
  cases hs
  cases hu
  cases decode w with
  | none => exact sameOutcome_finishError .badCmd s u
  | some i => exact sameOutcome_runCommand (commandFn i) hlen h

/-! ### RESULT is below 2^30 (R29) -/

theorem extractLsb'_high_eq_zero {r : Word} (h : r.toNat < 2 ^ 30) : r.extractLsb' 30 2 = 0#2 := by
  apply BitVec.eq_of_toNat_eq
  rw [BitVec.extractLsb'_toNat, Nat.shiftRight_eq_div_pow, Nat.div_eq_of_lt h]
  rfl

theorem result_of_b32EncFn {h : Nat} {inb out : List Byte} {r : Word} (hok : b32EncFn h inb = .ok out r) :
    r = 0#32 := by
  simp only [b32EncFn] at hok
  split_ifs at hok
  split at hok
  · cases hok
  · split_ifs at hok
    exact (CmdResult.ok.inj hok).2.symm

/-- R119: the separator found stands before the last of at most 90 characters. -/
theorem result_of_b32DecSplit {t out : List Byte} {p : Nat} {r : Word} (hok : b32DecSplit t p = .ok out r) :
    r.toNat < 2 ^ 30 := by
  simp only [b32DecSplit] at hok
  split_ifs at hok with _ hdata hmax
  have hlen : t.length ≤ 90 := Nat.le_of_not_lt hmax
  obtain ⟨-, rfl⟩ := CmdResult.ok.inj hok
  rw [BitVec.toNat_ofNat]
  omega

/-- R121: RESULT is the length of the HRP. -/
theorem result_of_b32DecFn {inb out : List Byte} {r : Word} (hok : b32DecFn inb = .ok out r) : r.toNat < 2 ^ 30 := by
  simp only [b32DecFn] at hok
  split_ifs at hok
  split at hok
  · cases hok
  · exact result_of_b32DecSplit hok

/-- R125: the polymod has 30 bits. -/
theorem result_of_b32PolymodFn {inb out : List Byte} {r : Word} (hok : b32PolymodFn inb = .ok out r) :
    r.toNat < 2 ^ 30 := by
  unfold b32PolymodFn at hok
  split at hok
  next => cases hok
  next ws _ =>
    obtain ⟨-, rfl⟩ := CmdResult.ok.inj hok
    rw [BitVec.toNat_setWidth_of_le (by omega)]
    exact (polymod ws).isLt

theorem result_of_fromWordsFn {strict : Bool} {inb out : List Byte} {r : Word}
    (hok : fromWordsFn strict inb = .ok out r) : r = 0#32 := by
  unfold fromWordsFn at hok
  split at hok
  · cases hok
  · split at hok
    · cases hok
    · exact (CmdResult.ok.inj hok).2.symm

theorem result_of_b58DecFn {inb out : List Byte} {r : Word} (hok : b58DecFn inb = .ok out r) : r = 0#32 := by
  unfold b58DecFn at hok
  split at hok
  · cases hok
  · exact (CmdResult.ok.inj hok).2.symm

/-- R29: RESULT[31:30] = 0 after every successful command. -/
theorem result_of_commandFn {i : Instr} {inb out : List Byte} {r : Word} (hok : commandFn i inb = .ok out r) :
    r.extractLsb' 30 2 = 0#2 := by
  have hzero : r = 0#32 → r.extractLsb' 30 2 = 0#2 := by
    rintro rfl
    rfl
  cases i with
  | b32Enc h => exact hzero (result_of_b32EncFn hok)
  | b32Dec => exact extractLsb'_high_eq_zero (result_of_b32DecFn hok)
  | b32Polymod => exact extractLsb'_high_eq_zero (result_of_b32PolymodFn hok)
  | fromWords strict => exact hzero (result_of_fromWordsFn hok)
  | b58Dec => exact hzero (result_of_b58DecFn hok)
  | b32Hrpexp | toWords | b58Enc | b58chkEnc _ => exact hzero (CmdResult.ok.inj hok).2.symm

/-! ### The invariant -/

/-- The invariant speaks of the memory and the result registers only. -/
theorem State.Inv.congr {s t : State} (h : s.Inv) (hmem : t.mem = s.mem) (hdone : t.done = s.done)
    (herr : t.err = s.err) (hcode : t.errcode = s.errcode) (hlen : t.outlen = s.outlen)
    (hres : t.result = s.result) : t.Inv where
  memory_wf := hmem ▸ h.memory_wf
  memory_inBuffers := hmem ▸ h.memory_inBuffers
  outlen_le := hlen ▸ h.outlen_le
  out_written := by
    rw [hmem, hlen]
    exact h.out_written
  errcode_listed := hcode ▸ h.errcode_listed
  err_iff := by
    rw [herr, hcode]
    exact h.err_iff
  err_outputs := by
    rw [herr, hlen, hres]
    exact h.err_outputs
  result_high := hres ▸ h.result_high
  idle_zero := by
    rw [hdone, herr, hcode, hlen, hres]
    exact h.idle_zero

theorem inv_reset : State.reset.Inv where
  memory_wf        := List.Pairwise.nil
  memory_inBuffers := fun _ hc => absurd hc List.not_mem_nil
  outlen_le        := Nat.zero_le _
  out_written      := fun _ hi => absurd hi (Nat.not_lt_zero _)
  errcode_listed   := by decide
  err_iff          := by decide
  err_outputs      := by decide
  result_high      := rfl
  idle_zero        := by decide

theorem inv_applyReset (s : State) : (applyReset s).Inv := inv_reset.congr rfl rfl rfl rfl rfl rfl

theorem State.Inv.served {s : State} (h : s.Inv) (r : Response) : (s.served r).Inv := h.congr rfl rfl rfl rfl rfl rfl

theorem State.Inv.writeInlen {s : State} (h : s.Inv) (v : Word) : (writeInlen v s).Inv :=
  h.congr rfl rfl rfl rfl rfl rfl

theorem State.Inv.writeIn {s : State} (h : s.Inv) {i : Nat} (hi : i < Config.inSize) (v : Byte) :
    (writeIn i v s).Inv where
  memory_wf := Memory.wf_set _ v h.memory_wf
  memory_inBuffers := fun c hc => by
    obtain rfl | hc := Memory.mem_set hc
    · exact .inl (isInOffset_inStart_add hi)
    · exact h.memory_inBuffers c hc
  outlen_le := h.outlen_le
  out_written := fun k hk => by
    have hne : inStart + i ≠ outStart + k :=
      Nat.ne_of_lt (Nat.lt_add_right k (inStart_add_lt_outStart hi))
    rw [writeIn_mem, Memory.get_set_of_ne _ _ hne]
    exact h.out_written k hk
  errcode_listed := h.errcode_listed
  err_iff := h.err_iff
  err_outputs := h.err_outputs
  result_high := h.result_high
  idle_zero := h.idle_zero

theorem State.Inv.finishError {s : State} (h : s.Inv) (code : ErrCode) : (finishError code s).Inv where
  memory_wf := h.memory_wf
  memory_inBuffers := h.memory_inBuffers
  outlen_le := Nat.zero_le _
  out_written := fun _ hk => absurd hk (Nat.not_lt_zero _)
  errcode_listed := code.code_mem_errorCodes
  err_iff := iff_of_true rfl code.code_ne_zero
  err_outputs := fun _ => ⟨rfl, rfl⟩
  result_high := by rw [finishError_result]; rfl
  idle_zero := nofun

theorem State.Inv.finishOk {s : State} (h : s.Inv) {out : List Byte} {v : Word}
    (hlen : out.length ≤ Config.outSize) (hv : v.extractLsb' 30 2 = 0#2) : (finishOk out v s).Inv where
  memory_wf := Memory.wf_setAll _ _ h.memory_wf
  memory_inBuffers := fun c hc => by
    obtain ⟨hlo, hhi⟩ | hc := Memory.mem_setAll hc
    · exact .inr ((isOutOffset_iff _).mpr ⟨hlo, Nat.lt_of_lt_of_le hhi (Nat.add_le_add_left hlen outStart)⟩)
    · exact h.memory_inBuffers c hc
  outlen_le := by rwa [toNat_outlen_finishOk hlen]
  out_written := fun k hk => by
    rw [toNat_outlen_finishOk hlen] at hk
    rw [finishOk_mem, Memory.get_setAll_inside _ _ _ _ hk, Option.isSome_some]
  errcode_listed := List.mem_cons_self
  err_iff := iff_of_false nofun (not_not.mpr rfl)
  err_outputs := nofun
  result_high := hv
  idle_zero := nofun

theorem State.Inv.writeCmd {s t : State} (h : s.Inv) {w : Word} (hw : writeCmd w s = .next t) : t.Inv := by
  obtain ⟨i, out, v, hok, hlen, rfl⟩ | ⟨code, rfl⟩ := writeCmd_cases hw
  · exact h.finishOk hlen (result_of_commandFn hok)
  · exact h.finishError code

theorem State.Inv.serve {s t : State} (h : s.Inv) {a : Access} (ha : serve a s = .next t) : t.Inv := by
  obtain ⟨_, _, r, -, rfl⟩ | ⟨w, -, hw⟩ | ⟨w, -, rfl⟩ | ⟨i, w, hi, -, rfl⟩ := serve_effects ha
  · exact h.served r
  · exact (h.served .written).writeCmd hw
  · exact (h.served .written).writeInlen w
  · exact (h.served .written).writeIn hi _

end Sys2Proof.Machine

namespace Sys2Proof.Proofs

open Sys2Proof.Machine

/-- Settles O7: the port hands a word written at CMD to the decoder's command. -/
theorem stepRunsTheDecodedCommand : Obligations.StepRunsTheDecodedCommand := by
  intro s w i rest hp hw
  rw [step_write_cmd hp, served_eq hp, writeCmd, hw]

/-- Settles O11, one register after the other. -/
theorem registerReadAnswersTheRegister : Obligations.RegisterReadAnswersTheRegister := by
  intro s off rest hp
  refine ⟨?_, ?_, ?_, ?_, ?_⟩
  · rintro rfl
    exact step_read_reg (r := .inlen) hp rfl (by rw [zero_append_eq_setWidth]; rfl)
  · rintro rfl
    exact step_read_reg (r := .status) hp rfl (by rw [← statusWord_eq_append]; rfl)
  · rintro rfl
    exact step_read_reg (r := .errcode) hp rfl (by rw [zero_append_eq_setWidth]; rfl)
  · rintro rfl
    exact step_read_reg (r := .outlen) hp rfl (by rw [zero_append_eq_setWidth]; rfl)
  · rintro rfl
    exact step_read_reg (r := .result) hp rfl rfl

/-- Settles O12: the step is `writeInlen`, which keeps the low byte. -/
theorem inlenWriteStoresTheLowByte : Obligations.InlenWriteStoresTheLowByte := by
  intro s v rest hp
  refine ⟨_, step_write_inlen hp, ?_, ?_, ?_⟩
  · exact BitVec.setWidth_eq_extractLsb' (by decide : 8 ≤ 32)
  · exact congrArg some (setWidth_setWidth_eq_and v)
  · rw [served_eq hp]
    rfl

/-- Settles O13: the step is `writeIn`, which sets one offset of the memory. -/
theorem inByteWriteStoresTheByte : Obligations.InByteWriteStoresTheByte := by
  intro s i v rest hi hp
  refine ⟨_, step_write_in hi hp, ?_, ?_, ?_⟩
  · rw [inByte, bufferByte_writeIn_self]
    exact BitVec.setWidth_eq_extractLsb' (by decide : 8 ≤ 32)
  · intro a ha
    rw [bufferByte_writeIn_of_ne _ _ ha.symm, bufferByte_served]
  · rw [served_eq hp]
    rfl

/-- Settles O14: one rule for a read of IN, one for a read of OUT. -/
theorem bufferReadAnswersTheByte : Obligations.BufferReadAnswersTheByte := fun _ _ _ =>
  ⟨step_read_in, step_read_out⟩

/-- Settles O17: the registers are 0 and the memory lists no byte. -/
theorem resetValues : Obligations.ResetValues :=
  ⟨rfl, rfl, rfl, rfl, rfl, fun _ _ => rfl, fun _ => rfl⟩

/-- Settles O19: of the served accesses only a byte's own write reaches it, and commands write above IN. -/
theorem inByteChangesOnlyByItsWriteOrReset : Obligations.InByteChangesOnlyByItsWriteOrReset := by
  intro s t inp rest i hi hp hreset hown hstep
  rw [step_of_pending_cons hp] at hstep
  cases inp with
  | reset => exact absurd rfl hreset
  | access a =>
    obtain ⟨_, _, r, -, rfl⟩ | ⟨w, -, hw⟩ | ⟨w, -, rfl⟩ | ⟨j, w, -, rfl, rfl⟩ := serve_effects hstep
    · exact bufferByte_served ..
    · exact inByte_writeCmd hw hi
    · exact bufferByte_writeInlen ..
    · have hne : inStart + j ≠ inStart + i := fun heq => hown w (by rw [heq])
      exact bufferByte_writeIn_of_ne _ _ hne

/-- Settles O21: accesses leave DONE as it is, commands set it. -/
theorem doneStaysUntilReset : Obligations.DoneStaysUntilReset := by
  intro s t hdone hreset hstep
  obtain ⟨-, rfl⟩ | ⟨rest, hp, -⟩ | ⟨a, rest, -, ha⟩ := step_cases hstep
  · exact hdone
  · exact absurd hp (hreset rest)
  · obtain ⟨_, _, r, -, rfl⟩ | ⟨w, -, hw⟩ | ⟨w, -, rfl⟩ | ⟨i, w, -, -, rfl⟩ := serve_effects ha
    · exact hdone
    · exact done_writeCmd hw
    · exact hdone
    · exact hdone

/-- Settles O22: every register is 0 and no byte is written. -/
theorem invariantHoldsAtReset : Obligations.InvariantHoldsAtReset := inv_reset

/-- Settles O23, from one lemma for each thing a step can do. -/
theorem stepKeepsTheInvariant : Obligations.StepKeepsTheInvariant := by
  intro s t h hstep
  obtain ⟨-, rfl⟩ | ⟨rest, -, rfl⟩ | ⟨a, rest, -, ha⟩ := step_cases hstep
  · exact h
  · exact inv_applyReset s
  · exact h.serve ha

/-- Settles O26: both completions set DONE, and no error's code is 0x00. -/
theorem everyCommandCompletes : Obligations.EveryCommandCompletes := by
  intro i s
  have hexec := exec_eq_runCommand i s
  refine ⟨_, hexec, ?_⟩
  obtain ⟨out, v, -, -, ht⟩ | ⟨code, ht⟩ := exec_cases hexec
  · rw [ht]
    exact ⟨rfl, .inl ⟨rfl, rfl⟩⟩
  · rw [ht]
    exact ⟨rfl, .inr ⟨rfl, code.code_ne_zero⟩⟩

/-- Settles O29: both states decode the same word, and its command sees the same input sequence. -/
theorem outcomeDependsOnlyOnInputAndWord : Obligations.OutcomeDependsOnlyOnInputAndWord := by
  intro s u s' u' w rest rest' hps hpu hlen hbytes hs hu
  rw [step_write_cmd hps] at hs
  rw [step_write_cmd hpu] at hu
  have hin (hle : s.inlen.toNat ≤ Config.inSize) : input s = input u :=
    input_congr hlen fun k hk => hbytes k hk (Nat.lt_of_lt_of_le hk hle)
  exact sameOutcome_writeCmd (s := s.served .written) (u := u.served .written) hlen hin hs hu

/-- Settles O32: LENGTH comes before the command function. -/
theorem overlongInlenEndsWithLength : Obligations.OverlongInlenEndsWithLength := fun i s h =>
  ⟨finishError .length s, by rw [exec_eq_runCommand, runCommand_of_overlong h], errorEffect_finishError .length s⟩

end Sys2Proof.Proofs

/-! ## Proofs of the family 20_memory.md: the legal accesses (R51, R52) and the command protocol (R57) -/

namespace Sys2Proof.Machine

/-! ### The legal accesses are those that are served -/

theorem legal_read_word_iff (off : Offset) : (Access.read off 4).Legal ↔ ∃ r, regAt off = some r ∧ r ≠ .cmd := by
  simp only [regAt_eq_some_iff]
  constructor
  · intro h
    have hoff : off = 0x004#12 ∨ off = 0x008#12 ∨ off = 0x00C#12 ∨ off = 0x010#12 ∨ off = 0x014#12 := by
      simpa [Access.Legal, ← BitVec.toNat_inj] using h
    obtain rfl | rfl | rfl | rfl | rfl := hoff <;> simp
  · rintro ⟨r, ⟨rfl, rfl⟩ | ⟨rfl, rfl⟩ | ⟨rfl, rfl⟩ | ⟨rfl, rfl⟩ | ⟨rfl, rfl⟩ | ⟨rfl, rfl⟩, hr⟩
    · exact absurd rfl hr
    all_goals simp [Access.Legal]

theorem legal_read_byte_iff (off : Offset) :
    (Access.read off 1).Legal ↔ isInOffset off.toNat = true ∨ isOutOffset off.toNat = true := by
  rw [isInOffset_iff, isOutOffset_iff]
  rfl

theorem legal_write_word_iff (off : Offset) (v : Word) :
    (Access.write off 4 v).Legal ↔ regAt off = some .cmd ∨ regAt off = some .inlen := by
  simp [regAt_eq_some_iff, Access.Legal, ← BitVec.toNat_inj]

theorem legal_write_byte_iff (off : Offset) (v : Word) :
    (Access.write off 1 v).Legal ↔ isInOffset off.toNat = true := by
  rw [isInOffset_iff]
  rfl

/-- R24: CMD is the one register that does not answer a read. -/
theorem exists_readReg_iff (r : Reg) (s : State) : (∃ v, readReg r s = some v) ↔ r ≠ .cmd := by
  cases r <;> simp [readReg]

/-- R51: the port serves no access outside the list. -/
theorem legal_of_serve_eq_next {a : Access} {s t : State} (h : serve a s = .next t) : a.Legal := by
  obtain ⟨off, _, w, rfl, hw, -, -⟩ | ⟨off, rfl, hin, -⟩ | ⟨off, rfl, -, hout, -⟩ | ⟨off, w, rfl, hr, -⟩ |
    ⟨off, w, rfl, hr, -⟩ | ⟨off, w, rfl, hin, -⟩ := serve_cases h
  · obtain ⟨r, hr, hv⟩ := Option.bind_eq_some_iff.mp hw
    exact (legal_read_word_iff off).mpr ⟨r, hr, (exists_readReg_iff r s).mp ⟨w, hv⟩⟩
  · exact (legal_read_byte_iff off).mpr (.inl hin)
  · exact (legal_read_byte_iff off).mpr (.inr hout)
  · exact (legal_write_word_iff off w).mpr (.inl hr)
  · exact (legal_write_word_iff off w).mpr (.inr hr)
  · exact (legal_write_byte_iff off w).mpr hin

/-- R50: an access has no third outcome. -/
theorem serve_eq_next_or_busError (a : Access) (s : State) :
    (∃ t, serve a s = .next t) ∨ serve a s = .fault (.busError a) := by
  cases a with
  | read off width =>
    simp only [serve, portReadReg, portReadByte]
    split_ifs with hword hbyte
    · subst hword
      split <;> simp
    · simp
    · simp
    · simp [hbyte]
    · simp
  | write off width v =>
    simp only [serve, portWriteReg, portWriteByte, writeCmd_eq]
    split_ifs with hword hbyte
    · subst hword
      split <;> simp
    · simp
    · simp [hbyte]
    · simp

/-- R52: an access outside the list is a bus error. -/
theorem serve_of_not_legal {a : Access} (h : ¬ a.Legal) (s : State) : serve a s = .fault (.busError a) :=
  (serve_eq_next_or_busError a s).resolve_left fun ⟨_, ht⟩ => h (legal_of_serve_eq_next ht)

theorem serve_of_legal {a : Access} (h : a.Legal) (s : State) : ∃ t, serve a s = .next t := by
  unfold Access.Legal at h
  split at h
  next off =>
    obtain ⟨r, hr, hcmd⟩ := (legal_read_word_iff off).mp h
    obtain ⟨v, hv⟩ := (exists_readReg_iff r s).mpr hcmd
    simp [serve, portReadReg, hr, hv]
  next off =>
    by_cases hin : isInOffset off.toNat = true
    · simp [serve, portReadByte, hin]
    · have hout := ((legal_read_byte_iff off).mp h).resolve_left hin
      simp [serve, portReadByte, hin, hout]
  next off v =>
    obtain hr | hr := (legal_write_word_iff off v).mp h
    · simp [serve, portWriteReg, hr, writeCmd_eq]
    · simp [serve, portWriteReg, hr]
  next off v => simp [serve, portWriteByte, (legal_write_byte_iff off v).mp h]
  next => exact h.elim
  next => exact h.elim

/-- R61: a CMD write leaves what stands at the port. -/
theorem pending_writeCmd {w : Word} {s t : State} (h : writeCmd w s = .next t) : t.pending = s.pending := by
  obtain ⟨_, out, v, -, -, rfl⟩ | ⟨code, rfl⟩ := writeCmd_cases h
  · exact finishOk_pending ..
  · exact finishError_pending ..

/-- R61: serving an access takes it off the queue, and nothing else. -/
theorem pending_serve {a : Access} {s t : State} (h : serve a s = .next t) : t.pending = s.pending.tail := by
  obtain ⟨_, _, r, -, rfl⟩ | ⟨w, -, hw⟩ | ⟨w, -, rfl⟩ | ⟨i, w, -, -, rfl⟩ := serve_effects h
  · exact served_pending ..
  · exact pending_writeCmd hw
  · rw [writeInlen_pending, served_pending]
  · rw [writeIn_pending, served_pending]

/-- R58: a read that is served only answers. -/
theorem eq_served_of_serve_read {off : Offset} {width : Nat} {s t : State}
    (h : serve (.read off width) s = .next t) : ∃ r, t = s.served r := by
  obtain ⟨_, _, r, -, ht⟩ | ⟨_, ha, -⟩ | ⟨_, ha, -⟩ | ⟨_, _, -, ha, -⟩ := serve_effects h
  · exact ⟨r, ht⟩
  all_goals cases ha

theorem sameBlock_served (s : State) (r : Response) : Stated.SameBlock s (s.served r) :=
  ⟨rfl, rfl, rfl, rfl, rfl, rfl, rfl, rfl⟩

/-! ### Runs -/

theorem run_succ_of_step {s t : State} (h : step s = .next t) (n : Nat) :
    Host.Core.run core (n + 1) s = Host.Core.run core n t := by
  simp [Host.Core.run, core, h]

/-- Every step from safe inputs goes on, with the inputs that are left. -/
theorem step_of_safeInputs {s : State} (h : s.SafeInputs) : ∃ t, step s = .next t ∧ t.SafeInputs := by
  have htail : ∀ inp ∈ s.pending.tail, inp.Legal := fun inp hmem => h inp (List.mem_of_mem_tail hmem)
  cases hp : s.pending with
  | nil => exact ⟨s, step_of_pending_nil hp, h⟩
  | cons inp rest =>
    rw [step_of_pending_cons hp]
    cases inp with
    | reset => exact ⟨applyReset s, rfl, htail⟩
    | access a =>
      have ha : a.Legal := h (.access a) (by rw [hp]; exact List.mem_cons_self)
      obtain ⟨t, ht⟩ := serve_of_legal ha s
      refine ⟨t, ht, ?_⟩
      rw [State.SafeInputs, pending_serve ht]
      exact htail

/-! ### The command protocol -/

/-- R77, R79: the word of a command decodes to the command. -/
theorem decode_encode (i : Instr) : decode (encode i) = some i := by
  cases i with
  | b32Enc h => revert h; decide
  | fromWords strict => cases strict <;> decide
  | b58chkEnc v => revert v; decide
  | b32Dec | b32Polymod | b32Hrpexp | toWords | b58Enc | b58Dec => decide

/-- R80: the first line of a load is the write of its first byte. -/
theorem load_cons (i : Nat) (b : Byte) (bs : List Byte) : load i (b :: bs) = wr8 i b :: load (i + 1) bs := by
  simp [load, List.zipIdx_succ, Nat.add_assoc, Nat.add_comm 1]

/-- R30: the step for one line of a load. -/
theorem step_wr8 {s : State} {i : Nat} {b : Byte} {rest : List Input} (hi : i < Config.inSize)
    (hp : s.pending = wr8 i b :: rest) : step s = .next (writeIn i b (s.served .written)) := by
  have hb : (b.setWidth 32).setWidth 8 = b := by simp
  rw [step_write_in hi hp, hb]

/-- R25: the step for `setlen`. -/
theorem step_setlen {s : State} {n : Nat} {rest : List Input} (hp : s.pending = setlen n :: rest) :
    step s = .next { s with inlen := BitVec.ofNat 8 n, pending := rest, response := .written } := by
  have hn : (BitVec.ofNat 32 n).setWidth 8 = BitVec.ofNat 8 n := by simp
  rw [step_write_inlen hp, served_eq hp, writeInlen, hn]

/-- R76: the step for `cmd`. -/
theorem step_cmd {s : State} {i : Instr} {rest : List Input} (hp : s.pending = cmd i :: rest) :
    step s = exec i { s with pending := rest, response := .written } := by
  rw [step_write_cmd hp, served_eq hp, writeCmd, decode_encode]

/-- R30, R61: the lines of a load, served one after the other, store the bytes from IN[i] on and leave the rest of the
queue. What the port answered last depends on whether there was a line. -/
theorem run_load {bs : List Byte} {i : Nat} {s : State} {rest : List Input} (hlen : i + bs.length ≤ Config.inSize)
    (hp : s.pending = load i bs ++ rest) (n : Nat) :
    ∃ r, Host.Core.run core (bs.length + n) s =
      Host.Core.run core n
        { s with mem := Memory.setAll s.mem (inStart + i) bs, pending := rest, response := r } := by
  induction bs generalizing i s with
  | nil =>
    obtain rfl : s.pending = rest := hp
    exact ⟨s.response, by rw [List.length_nil, Nat.zero_add]; rfl⟩
  | cons b bs ih =>
    rw [List.length_cons] at hlen ⊢
    rw [load_cons, List.cons_append] at hp
    have hstep := step_wr8 (by omega) hp
    rw [served_eq hp] at hstep
    have hrest : i + 1 + bs.length ≤ Config.inSize := by omega
    rw [Nat.add_right_comm, run_succ_of_step hstep]
    exact ih hrest rfl

/-- The state in which the protocol of R57 starts its command: the bytes in IN from IN[0] on, INLEN their number, and
the CMD write answered. -/
def State.loadedWith (s : State) (bs : List Byte) (rest : List Input) : State :=
  { s with inlen := BitVec.ofNat 8 bs.length, mem := Memory.setAll s.mem inStart bs, pending := rest,
           response := .written }

/-- R57, R80: the load, the write of INLEN and the CMD write run the command on the loaded bytes. -/
theorem run_load_setlen_cmd {s : State} {bs : List Byte} {i : Instr} {rest : List Input}
    (hlen : bs.length ≤ Config.inSize) (hp : s.pending = load 0 bs ++ [setlen bs.length, cmd i] ++ rest) :
    Host.Core.run core (bs.length + 2) s = exec i (s.loadedWith bs rest) := by
  rw [List.append_assoc] at hp
  obtain ⟨r, hr⟩ := run_load (by omega) hp 2
  have hexec := exec_eq_runCommand i (s.loadedWith bs rest)
  rw [hr, run_succ_of_step (step_setlen rfl), hexec]
  exact run_succ_of_step ((step_cmd rfl).trans hexec) 0

theorem bufferByte_loadedWith_outside (s : State) {bs : List Byte} (rest : List Input) {a : Nat}
    (h : a < inStart ∨ inStart + bs.length ≤ a) : bufferByte (s.loadedWith bs rest) a = bufferByte s a := by
  obtain h | h := h
  · simp [bufferByte, State.loadedWith, Memory.get_setAll_of_lt _ _ h]
  · simp [bufferByte, State.loadedWith, Memory.get_setAll_of_ge _ _ h]

theorem inByte_loadedWith (s : State) {bs : List Byte} (rest : List Input) {k : Nat} (h : k < bs.length) :
    inByte (s.loadedWith bs rest) k = bs[k] := by
  simp [inByte, bufferByte, State.loadedWith, Memory.get_setAll_inside _ _ _ _ h]

/-- R73: the command's input is the loaded bytes. -/
theorem input_loadedWith (s : State) {bs : List Byte} (rest : List Input) (h : bs.length ≤ Config.inSize) :
    input (s.loadedWith bs rest) = bs := by
  have hlen : (s.loadedWith bs rest).inlen.toNat = bs.length :=
    Nat.mod_eq_of_lt (Nat.lt_of_le_of_lt h (by decide))
  apply List.ext_getElem
  · rw [length_input, hlen]
  · intro k _ hk
    simp [input, inByte_loadedWith s rest hk]

/-- R32: loading IN leaves the outcome of the command before. -/
theorem sameOutcome_loadedWith (s : State) {bs : List Byte} (rest : List Input) (h : bs.length ≤ Config.inSize) :
    Stated.SameOutcome (s.loadedWith bs rest) s := by
  refine ⟨rfl, rfl, rfl, rfl, rfl, fun k => ?_⟩
  have hend : inStart + bs.length ≤ outStart + k :=
    Nat.le_add_right_of_le (Nat.le_trans (Nat.add_le_add_left h inStart) (by decide))
  exact if_congr Iff.rfl (bufferByte_loadedWith_outside s rest (.inr hend)) rfl

end Sys2Proof.Machine

namespace Sys2Proof.Proofs

open Sys2Proof.Machine

/-- Settles O59: `State.loadedWith` is the state in which the command starts. -/
theorem commandProtocolRunsOnTheLoadedBytes : Obligations.CommandProtocolRunsOnTheLoadedBytes := by
  intro s bs i rest hlen hp
  exact ⟨s.loadedWith bs rest, input_loadedWith s rest hlen, rfl, rfl, sameOutcome_loadedWith s rest hlen,
    fun _ ha => bufferByte_loadedWith_outside s rest ha, run_load_setlen_cmd hlen hp⟩

/-- Settles O9: the port answers a bus error, and a host that goes on drops the access. -/
theorem illegalAccessIsABusErrorThatChangesNothing : Obligations.IllegalAccessIsABusErrorThatChangesNothing := by
  intro s a rest hp ha
  have hstep : step s = .fault (.busError a) := (step_of_pending_cons hp).trans (serve_of_not_legal ha s)
  refine ⟨hstep, ?_⟩
  rw [advance, hstep]
  exact served_eq hp .busError

/-- Settles O10: one rule for each line of R51's list, and the queue's rule. -/
theorem legalAccessIsServed : Obligations.LegalAccessIsServed := by
  intro s a rest hp ha
  obtain ⟨t, ht⟩ := serve_of_legal ha s
  exact ⟨t, (step_of_pending_cons hp).trans ht, by rw [pending_serve ht, hp, List.tail_cons]⟩

/-- Settles O15: a read that is served changes the queue and the response only. -/
theorem readsHaveNoSideEffects : Obligations.ReadsHaveNoSideEffects := by
  intro s t off width rest hp hstep
  obtain ⟨r, rfl⟩ := eq_served_of_serve_read ((step_of_pending_cons hp).symm.trans hstep)
  exact ⟨sameBlock_served s r, by rw [served_pending, hp, List.tail_cons]⟩

/-- Settles O24, by induction on the number of steps: each one goes on and leaves safe inputs. -/
theorem safeInputsNeverStopARun : Obligations.SafeInputsNeverStopARun := by
  intro n
  induction n with
  | zero => exact fun s h => ⟨s, rfl, h⟩
  | succ n ih =>
    intro s h
    obtain ⟨t, hstep, ht⟩ := step_of_safeInputs h
    rw [run_succ_of_step hstep]
    exact ih t ht

end Sys2Proof.Proofs

/-! ## Proofs of the family 30_encoding.md: the command word, its rows and its fields (R70 to R79), the frame of a
command (R76) and the lines of the host (R80) -/

namespace Sys2Proof

/-! ### The fields of a command word (R70) -/

/-- R70: the four fields, side by side, are the word. -/
theorem append_commandFields (w : Word) :
    (commandFields w).rsv ++ ((commandFields w).s ++ ((commandFields w).arg ++ (commandFields w).op)) = w := by
  simp only [commandFields]
  rw [BitVec.extractLsb'_append_extractLsb'_eq_extractLsb' (by rfl),
    BitVec.extractLsb'_append_extractLsb'_eq_extractLsb' (by rfl)]
  exact BitVec.extractLsb'_append_extractLsb'

/-- R70: no bit of a word is outside its fields. -/
theorem commandFields_injective : Function.Injective commandFields := fun w v h => by
  rw [← append_commandFields w, h, append_commandFields]

/-- A mask acts on each field by itself. -/
theorem commandFields_and (w m : Word) : commandFields (w &&& m) =
    ⟨(commandFields w).op &&& (commandFields m).op, (commandFields w).arg &&& (commandFields m).arg,
      (commandFields w).s &&& (commandFields m).s, (commandFields w).rsv &&& (commandFields m).rsv⟩ := by
  simp only [commandFields, BitVec.extractLsb'_and]

/-- R79: the operand is added above the OP. -/
theorem toNat_wordWithArg (op arg : BitVec 8) :
    (wordWithArg (op.setWidth 32) arg).toNat = arg.toNat * 2 ^ 8 + op.toNat := by
  have hop : (op.setWidth 32).toNat = op.toNat := BitVec.toNat_setWidth_of_le (by decide)
  have harg : (arg.setWidth 32).toNat = arg.toNat := BitVec.toNat_setWidth_of_le (by decide)
  have hlt : arg.toNat <<< 8 < 2 ^ 32 := by rw [Nat.shiftLeft_eq]; omega
  rw [wordWithArg, BitVec.toNat_or, BitVec.toNat_shiftLeft, hop, harg, Nat.mod_eq_of_lt hlt, Nat.or_comm,
    ← Nat.shiftLeft_add_eq_or_of_lt op.isLt, Nat.shiftLeft_eq]

/-- R79: such a word holds its OP and its operand in ARG, and nothing in S and RSV. -/
theorem commandFields_wordWithArg (op arg : BitVec 8) :
    commandFields (wordWithArg (op.setWidth 32) arg) = ⟨op, arg, 0#1, 0#15⟩ := by
  simp only [commandFields, CommandFields.mk.injEq, ← BitVec.toNat_inj, BitVec.extractLsb'_toNat, toNat_wordWithArg,
    Nat.shiftRight_eq_div_pow, BitVec.toNat_ofNat]
  omega

/-- A word that holds an OP alone. -/
theorem commandFields_setWidth (op : BitVec 8) : commandFields (op.setWidth 32) = ⟨op, 0#8, 0#1, 0#15⟩ := by
  rw [← commandFields_wordWithArg op 0#8]
  simp [wordWithArg]

/-- R71, R72: the fields of each command's word. -/
def CommandFields.ofInstr : Instr → CommandFields
  | .b32Enc h         => ⟨0x01#8, h, 0#1, 0#15⟩
  | .b32Dec           => ⟨0x02#8, 0#8, 0#1, 0#15⟩
  | .b32Polymod       => ⟨0x03#8, 0#8, 0#1, 0#15⟩
  | .b32Hrpexp        => ⟨0x04#8, 0#8, 0#1, 0#15⟩
  | .toWords          => ⟨0x10#8, 0#8, 0#1, 0#15⟩
  | .fromWords strict => ⟨0x11#8, 0#8, .ofBool strict, 0#15⟩
  | .b58Enc           => ⟨0x20#8, 0#8, 0#1, 0#15⟩
  | .b58Dec           => ⟨0x21#8, 0#8, 0#1, 0#15⟩
  | .b58chkEnc v      => ⟨0x22#8, v, 0#1, 0#15⟩

theorem commandFields_encode (i : Instr) : commandFields (encode i) = .ofInstr i := by
  cases i with
  | b32Enc h => exact commandFields_wordWithArg 0x01#8 h
  | b58chkEnc v => exact commandFields_wordWithArg 0x22#8 v
  | fromWords strict => cases strict <;> rfl
  | b32Dec | b32Polymod | b32Hrpexp | toWords | b58Enc | b58Dec => rfl

/-- The fields say which command's word a word is. -/
theorem encode_eq_iff (i : Instr) (w : Word) : encode i = w ↔ commandFields w = .ofInstr i := by
  rw [← commandFields_encode i]
  exact ⟨fun h => h ▸ rfl, fun h => (commandFields_injective h).symm⟩

/-! ### The rows of the table (R77) -/

/-- R77: what a row with an OP alone as its match says of the four fields. -/
theorem masked_fields {w mask : Word} {op : BitVec 8} {m : CommandFields} (hmask : commandFields mask = m)
    (h : w &&& mask = op.setWidth 32) :
    (commandFields w).op &&& m.op = op ∧ (commandFields w).arg &&& m.arg = 0#8 ∧
      (commandFields w).s &&& m.s = 0#1 ∧ (commandFields w).rsv &&& m.rsv = 0#15 := by
  have hand := commandFields_and w mask
  rw [h, hmask, commandFields_setWidth] at hand
  obtain ⟨hop, harg, hs, hrsv⟩ := CommandFields.mk.inj hand
  exact ⟨hop.symm, harg.symm, hs.symm, hrsv.symm⟩

/-- The rows of B32_ENC and B58CHK_ENC leave ARG open. -/
theorem commandFields_of_argRow {w : Word} {op : BitVec 8} (h : w &&& 0xFFFF00FF#32 = op.setWidth 32) :
    commandFields w = ⟨op, (commandFields w).arg, 0#1, 0#15⟩ := by
  have hmask : commandFields 0xFFFF00FF#32 = ⟨.allOnes 8, 0#8, .allOnes 1, .allOnes 15⟩ := by decide
  obtain ⟨hop, -, hs, hrsv⟩ := masked_fields hmask h
  rw [BitVec.and_allOnes] at hop hs hrsv
  rw [← hop, ← hs, ← hrsv]

/-- The row of FROM_WORDS leaves S open. -/
theorem commandFields_of_strictRow {w : Word} {op : BitVec 8} (h : w &&& 0xFFFEFFFF#32 = op.setWidth 32) :
    commandFields w = ⟨op, 0#8, (commandFields w).s, 0#15⟩ := by
  have hmask : commandFields 0xFFFEFFFF#32 = ⟨.allOnes 8, .allOnes 8, 0#1, .allOnes 15⟩ := by decide
  obtain ⟨hop, harg, -, hrsv⟩ := masked_fields hmask h
  rw [BitVec.and_allOnes] at hop harg hrsv
  rw [← hop, ← harg, ← hrsv]

/-- The other rows select one word each. -/
theorem commandFields_of_fullRow {w : Word} {op : BitVec 8} (h : w &&& 0xFFFFFFFF#32 = op.setWidth 32) :
    commandFields w = ⟨op, 0#8, 0#1, 0#15⟩ := by
  rw [← commandFields_setWidth, ← h]
  exact congrArg commandFields BitVec.and_allOnes.symm

/-- R72: the flag S as the command holds it, and as its word does. -/
theorem ofBool_beq_one (s : BitVec 1) : BitVec.ofBool (s == 1#1) = s := by
  revert s; decide

/-- R77: the fields of a word are those of the command that the row it selects builds. -/
theorem commandFields_of_selects {r : OpRow} (hr : r ∈ opRows) {w : Word} (h : w &&& r.mask = r.expected) :
    commandFields w = .ofInstr (r.build (commandFields w)) := by
  simp only [opRows, List.mem_cons, List.not_mem_nil, or_false] at hr
  obtain rfl | rfl | rfl | rfl | rfl | rfl | rfl | rfl | rfl := hr
  · exact commandFields_of_argRow (op := 0x01#8) h
  · exact commandFields_of_fullRow (op := 0x02#8) h
  · exact commandFields_of_fullRow (op := 0x03#8) h
  · exact commandFields_of_fullRow (op := 0x04#8) h
  · exact commandFields_of_fullRow (op := 0x10#8) h
  · simp only [CommandFields.ofInstr, ofBool_beq_one]
    exact commandFields_of_strictRow (op := 0x11#8) h
  · exact commandFields_of_fullRow (op := 0x20#8) h
  · exact commandFields_of_fullRow (op := 0x21#8) h
  · exact commandFields_of_argRow (op := 0x22#8) h

/-- R77: two rows of the table differ on the bits that both of them test. -/
theorem opRows_pairwise_differ :
    opRows.Pairwise (fun r q => r.expected &&& q.mask ≠ q.expected &&& r.mask) := by decide

/-- R77: at most one row matches. -/
theorem opRows_pairwise_exclusive (w : Word) :
    opRows.Pairwise (fun r q => ¬ (w &&& r.mask = r.expected ∧ w &&& q.mask = q.expected)) :=
  opRows_pairwise_differ.imp fun {r q} hne ⟨hr, hq⟩ => hne <| by
    rw [← hr, ← hq, BitVec.and_assoc, BitVec.and_assoc, BitVec.and_comm r.mask]

/-- R77: a word decodes by the row it selects, since no row before it is selected too. -/
theorem decode_of_selects {r : OpRow} (hr : r ∈ opRows) {w : Word} (h : w &&& r.mask = r.expected) :
    decode w = some (r.build (commandFields w)) := by
  obtain ⟨before, later, hsplit⟩ := List.append_of_mem hr
  have hexcl := opRows_pairwise_exclusive w
  rw [hsplit] at hexcl
  obtain ⟨-, -, hcross⟩ := List.pairwise_append.mp hexcl
  have hbefore : ∀ q ∈ before, ¬ q.selects w = true := fun q hq hsel =>
    hcross q hq r List.mem_cons_self ⟨beq_iff_eq.mp hsel, h⟩
  have hfind : opRows.find? (fun q => q.selects w) = some r :=
    List.find?_eq_some_iff_append.mpr
      ⟨beq_iff_eq.mpr h, before, later, hsplit, fun q hq => by simpa using hbefore q hq⟩
  rw [decode, hfind, Option.map_some]

/-- R77: a word that decodes selects the row of its command. -/
theorem exists_selects_of_decode {w : Word} {i : Instr} (h : decode w = some i) :
    ∃ r ∈ opRows, w &&& r.mask = r.expected ∧ r.build (commandFields w) = i := by
  obtain ⟨r, hfind, hbuild⟩ := Option.map_eq_some_iff.mp h
  have hsel : r.selects w = true := List.find?_some (p := fun q : OpRow => q.selects w) hfind
  exact ⟨r, List.mem_of_find?_eq_some hfind, beq_iff_eq.mp hsel, hbuild⟩

/-- R77: a word that selects no row is no command. -/
theorem decode_eq_none {w : Word} (h : ∀ r ∈ opRows, w &&& r.mask ≠ r.expected) : decode w = none :=
  Option.eq_none_iff_forall_ne_some.mpr fun i hw => by
    obtain ⟨r, hr, hsel, -⟩ := exists_selects_of_decode hw
    exact h r hr hsel

/-- R77, R79: decoding is the inverse of encoding. -/
theorem decode_eq_some_iff (w : Word) (i : Instr) : decode w = some i ↔ encode i = w := by
  constructor
  · intro h
    obtain ⟨r, hr, hsel, rfl⟩ := exists_selects_of_decode h
    exact (encode_eq_iff _ w).mpr (commandFields_of_selects hr hsel)
  · rintro rfl
    exact Machine.decode_encode i

/-! ### The legal words (R74) -/

theorem CommandFields.legal_iff (f : CommandFields) : f.legal = true ↔
    f.op ∈ [0x01#8, 0x02#8, 0x03#8, 0x04#8, 0x10#8, 0x11#8, 0x20#8, 0x21#8, 0x22#8] ∧ f.rsv = 0#15 ∧
    (f.s = 0#1 ∨ f.op = 0x11#8) ∧ (f.arg = 0#8 ∨ f.op = 0x01#8 ∨ f.op = 0x22#8) := by
  simp only [legal, opAssigned, rsvZero, strictOnlyOnFromWords, argOnlyWhereUsed, Bool.and_eq_true, Bool.or_eq_true,
    beq_iff_eq, List.contains_iff_mem, and_assoc, or_assoc]

/-- R74: `LegalWord` is the check of the fields. -/
theorem legalWord_iff (w : Word) : Stated.LegalWord w ↔ (commandFields w).legal = true :=
  (CommandFields.legal_iff (commandFields w)).symm

theorem legal_encode (i : Instr) : (commandFields (encode i)).legal = true := by
  cases i with
  | b32Enc h => exact Laws.EncodesLegally.b32Enc h
  | b32Dec => exact Laws.EncodesLegally.b32Dec
  | b32Polymod => exact Laws.EncodesLegally.b32Polymod
  | b32Hrpexp => exact Laws.EncodesLegally.b32Hrpexp
  | toWords => exact Laws.EncodesLegally.toWords
  | fromWords strict => exact Laws.EncodesLegally.fromWords strict
  | b58Enc => exact Laws.EncodesLegally.b58Enc
  | b58Dec => exact Laws.EncodesLegally.b58Dec
  | b58chkEnc v => exact Laws.EncodesLegally.b58chkEnc v

/-- R71, R74: legal fields are the fields of the command that their OP names. -/
theorem CommandFields.eq_ofInstr_of_legal {f : CommandFields} (h : f.legal = true) : ∃ i, f = .ofInstr i := by
  obtain ⟨op, arg, s, rsv⟩ := f
  obtain ⟨hop, rfl, hs, harg⟩ := (legal_iff _).mp h
  dsimp only at hop hs harg
  simp only [List.mem_cons, List.not_mem_nil, or_false] at hop
  obtain rfl | rfl | rfl | rfl | rfl | rfl | rfl | rfl | rfl := hop
  · obtain rfl := hs.resolve_right (by decide)
    exact ⟨.b32Enc arg, rfl⟩
  · obtain ⟨rfl, rfl⟩ := And.intro (hs.resolve_right (by decide)) (harg.resolve_right (by decide))
    exact ⟨.b32Dec, rfl⟩
  · obtain ⟨rfl, rfl⟩ := And.intro (hs.resolve_right (by decide)) (harg.resolve_right (by decide))
    exact ⟨.b32Polymod, rfl⟩
  · obtain ⟨rfl, rfl⟩ := And.intro (hs.resolve_right (by decide)) (harg.resolve_right (by decide))
    exact ⟨.b32Hrpexp, rfl⟩
  · obtain ⟨rfl, rfl⟩ := And.intro (hs.resolve_right (by decide)) (harg.resolve_right (by decide))
    exact ⟨.toWords, rfl⟩
  · obtain rfl := harg.resolve_right (by decide)
    exact ⟨.fromWords (s == 1#1), by rw [ofInstr, ofBool_beq_one]⟩
  · obtain ⟨rfl, rfl⟩ := And.intro (hs.resolve_right (by decide)) (harg.resolve_right (by decide))
    exact ⟨.b58Enc, rfl⟩
  · obtain ⟨rfl, rfl⟩ := And.intro (hs.resolve_right (by decide)) (harg.resolve_right (by decide))
    exact ⟨.b58Dec, rfl⟩
  · obtain rfl := hs.resolve_right (by decide)
    exact ⟨.b58chkEnc arg, rfl⟩

/-- R74: exactly the legal words decode. -/
theorem exists_decode_iff_legal (w : Word) : (∃ i, decode w = some i) ↔ (commandFields w).legal = true := by
  simp only [decode_eq_some_iff]
  constructor
  · rintro ⟨i, rfl⟩
    exact legal_encode i
  · intro h
    obtain ⟨i, hi⟩ := CommandFields.eq_ofInstr_of_legal h
    exact ⟨i, (encode_eq_iff i w).mpr hi⟩

/-- R75: the illegal words are no command. -/
theorem decode_eq_none_of_illegal {w : Word} (h : (commandFields w).legal = false) : decode w = none :=
  Option.eq_none_iff_forall_ne_some.mpr fun i hw =>
    Bool.eq_false_iff.mp h ((exists_decode_iff_legal w).mp ⟨i, hw⟩)

end Sys2Proof

namespace Sys2Proof.Machine

/-! ### The lines of the host (R80) -/

/-- R80: a byte is written with its upper bits 0. -/
theorem wr8_eq (i : Nat) (b : Byte) : wr8 i b = .access (.write (BitVec.ofNat 12 (0x100 + i)) 1 (0#24 ++ b)) := by
  rw [wr8, zero_append_eq_setWidth]

/-- R80: an empty range is fetched by no access. -/
theorem fetch_of_le {a b : Nat} (h : b ≤ a) : fetch a b = [] := by
  simp [fetch, Nat.sub_eq_zero_of_le h]

/-- R80: the first access of a fetch reads its first byte. -/
theorem fetch_of_lt {a b : Nat} (h : a < b) : fetch a b = rd8 a :: fetch (a + 1) b := by
  have hlen : b - a = (b - (a + 1)) + 1 := by omega
  simp only [fetch, hlen, List.range_succ_eq_map, List.map_cons, List.map_map]
  simp [Function.comp_def, Nat.add_assoc, Nat.add_comm 1]

end Sys2Proof.Machine

namespace Sys2Proof.Proofs

open Sys2Proof.Machine

/-- Settles O1, by `decode_encode`: a case for each command, over every value of its operand. -/
theorem decodeOfEncodeIsTheCommand : Obligations.DecodeOfEncodeIsTheCommand := decode_encode

/-- Settles O2: the row a word selects fixes its four fields, and the fields are the word. -/
theorem encodeOfDecodeIsTheWord : Obligations.EncodeOfDecodeIsTheWord := fun w i => (decode_eq_some_iff w i).mp

/-- Settles O3: the legal fields are those of the commands' words, and those words are the ones that decode. -/
theorem decodesExactlyTheLegalWords : Obligations.DecodesExactlyTheLegalWords := fun w =>
  (exists_decode_iff_legal w).trans (legalWord_iff w).symm

/-- Settles O4: the rows exclude each other, so the first one found is the only one. -/
theorem rowsDecideTheWord : Obligations.RowsDecideTheWord := by
  intro w
  refine ⟨opRows_pairwise_exclusive w, fun r hr => decode_of_selects hr, fun hnone s => ⟨?_, ?_⟩⟩
  · rw [writeCmd_eq, decode_eq_none hnone]
  · exact errorEffect_finishError .badCmd s

/-- Settles O27: a success stores its output in OUT only, an error stores nothing. -/
theorem commandsWriteOnlyTheirOutputs : Obligations.CommandsWriteOnlyTheirOutputs := by
  intro i s t h
  obtain ⟨out, v, -, hlen, rfl⟩ | ⟨code, rfl⟩ := exec_cases h
  · refine ⟨rfl, rfl, rfl, rfl, fun a ha => ?_, fun herr => ?_⟩
    · rw [toNat_outlen_finishOk hlen] at ha
      exact bufferByte_finishOk_outside out v s ha
    · cases herr
  · exact ⟨rfl, rfl, rfl, rfl, fun a _ => bufferByte_finishError code s a, fun _ => bufferByte_finishError code s⟩

/-- Settles O5: `encode` is the table. -/
theorem wordsOfTheAssemblerTable : Obligations.WordsOfTheAssemblerTable :=
  ⟨fun _ => rfl, rfl, rfl, rfl, rfl, rfl, rfl, rfl, rfl, fun _ => rfl⟩

/-- Settles O6: the first six are the words of their commands, and R74 refuses the fields of the others. -/
theorem writtenOutWordsDecode : Obligations.WrittenOutWordsDecode :=
  ⟨decode_encode (.b32Enc 2#8), decode_encode (.b32Enc 255#8), decode_encode .b32Dec, decode_encode (.fromWords true),
    decode_encode .toWords, decode_encode (.b58chkEnc 5#8), decode_eq_none_of_illegal rfl,
    decode_eq_none_of_illegal rfl, decode_eq_none_of_illegal rfl, decode_eq_none_of_illegal rfl,
    decode_eq_none_of_illegal rfl, decode_eq_none_of_illegal rfl, decode_eq_none_of_illegal rfl⟩

/-- Settles O58: a line of one access is that access by definition; a load and a fetch begin with their first one. -/
theorem hostNotationIsTheAccessesOfTheTable : Obligations.HostNotationIsTheAccessesOfTheTable :=
  ⟨fun _ => ⟨rfl, rfl⟩, rfl, rfl, rfl, rfl, rfl, wr8_eq, fun _ => rfl, fun _ => rfl, fun _ => rfl, fun _ => rfl,
    fun i b bs => by rw [load_cons, wr8_eq], fun _ _ => fetch_of_le, fun _ _ => fetch_of_lt⟩

end Sys2Proof.Proofs

/-! ## Proofs of the family 40_bech32.md: the charset (R101, R102), the polymod and the checksum (R107 to R113), the
commands (R115 to R127) and the round trip (R129) -/

namespace Sys2Proof.Machine

/-! ### The outcome of a command, from the answer of its command function (R76) -/

theorem successEffect_finishOk {out : List Byte} (h : out.length ≤ Config.outSize) (r : Word) (s : State) :
    Stated.SuccessEffect s (finishOk out r s) out r where
  outlen    := toNat_outlen_finishOk h r s
  bytes     := bufferByte_finishOk_inside out r s
  reads     := fun k hk => by rw [outByte_finishOk h, List.getD_eq_getElem _ _ hk]
  result    := rfl
  errcode   := rfl
  done      := rfl
  err       := rfl
  inlen     := rfl
  elsewhere := fun _ => bufferByte_finishOk_outside out r s
  pending   := rfl
  response  := rfl
  resets    := rfl

/-- A command that ends without an error ends with the output of its command function. -/
theorem exists_ok_of_err_eq_false {i : Instr} {s t : State} (hexec : exec i s = .next t) (herr : t.err = false) :
    ∃ out r, commandFn i (input s) = .ok out r ∧ out.length ≤ Config.outSize ∧ t = finishOk out r s := by
  obtain hok | ⟨code, rfl⟩ := exec_cases hexec
  · exact hok
  · cases herr

section
variable (i : Instr) {s t : State} {out : List Byte} {r : Word} {code : ErrCode}
variable (hin : s.inlen.toNat ≤ Config.inSize)
include hin

/-- R204: with INLEN in range the command function is asked. -/
theorem exec_of_inlen_le : exec i s = .next (complete (commandFn i (input s)) s) := by
  rw [exec_eq_runCommand, runCommand, if_neg (Nat.not_lt.mpr hin)]

theorem succeeds_of_commandFn (hf : commandFn i (input s) = .ok out r) (hout : out.length ≤ Config.outSize) :
    Stated.Succeeds i s out r := by
  refine ⟨finishOk out r s, ?_, successEffect_finishOk hout r s⟩
  rw [exec_of_inlen_le i hin, hf, complete, if_neg (Nat.not_lt.mpr hout)]

/-- R201: an output over OUT_SIZE bytes. -/
theorem fails_of_overlong_output (hf : commandFn i (input s) = .ok out r) (hout : Config.outSize < out.length) :
    Stated.Fails i s 0x02#8 := by
  refine ⟨finishError .length s, ?_, errorEffect_finishError .length s⟩
  rw [exec_of_inlen_le i hin, hf, complete, if_pos hout]

theorem exec_of_error (hf : commandFn i (input s) = .error code) : exec i s = .next (finishError code s) := by
  rw [exec_of_inlen_le i hin, hf, complete]

theorem fails_of_commandFn (hf : commandFn i (input s) = .error code) : Stated.Fails i s code.code :=
  ⟨finishError code s, exec_of_error i hin hf, errorEffect_finishError code s⟩

theorem errcode_of_commandFn (hf : commandFn i (input s) = .error code) (hexec : exec i s = .next t) :
    t.errcode = code.code := by
  rw [exec_of_error i hin hf] at hexec
  cases hexec
  rfl

end

theorem outputs_finishOk {out : List Byte} (h : out.length ≤ Config.outSize) (r : Word) (s : State) :
    Stated.outputs (finishOk out r s) = out := by
  apply List.ext_getElem
  · rw [Stated.outputs, List.length_map, List.length_range, toNat_outlen_finishOk h]
  · intro k _ hk
    simp [Stated.outputs, outByte_finishOk h, hk]

theorem getElem_input (s : State) {k : Nat} (hk : k < (input s).length) : (input s)[k] = inByte s k := by
  simp [input]

/-- R34: with the same INLEN, equal answers of the command function give the same outcome. -/
theorem sameOutcome_of_commandFn (i : Instr) {s u s' u' : State} (hlen : s.inlen = u.inlen)
    (hf : commandFn i (input s) = commandFn i (input u)) (hs : exec i s = .next s') (hu : exec i u = .next u') :
    Stated.SameOutcome s' u' := by
  rw [exec_eq_runCommand] at hs hu
  cases hs
  cases hu
  unfold runCommand
  rw [← hlen, ← hf]
  split
  · exact sameOutcome_finishError .length s u
  · exact sameOutcome_complete _ s u

theorem inlen_eq_of_length_input {s u : State} (h : (input s).length = (input u).length) : s.inlen = u.inlen := by
  rw [length_input, length_input] at h
  exact BitVec.eq_of_toNat_eq h

/-! ### Words and the bytes that hold them (R53, R106) -/

theorem asWords_of_allWords {bs : List Byte} (h : Stated.AllWords bs) : asWords bs = some (Stated.wordsIn bs) :=
  (asWords_eq_some_iff _ _).mpr ⟨h, rfl⟩

theorem asWords_of_not_allWords {bs : List Byte} (h : ¬ Stated.AllWords bs) : asWords bs = none :=
  Option.eq_none_iff_forall_ne_some.mpr fun ws hws => h ((asWords_eq_some_iff _ ws).mp hws).1

theorem allWords_bytesOf (ws : List Word5) : Stated.AllWords (Stated.bytesOf ws) := by
  intro b hb
  obtain ⟨w, -, rfl⟩ := List.mem_map.mp hb
  rw [BitVec.toNat_setWidth_of_le (by decide)]
  exact Nat.le_of_lt_succ w.isLt

theorem wordsIn_bytesOf (ws : List Word5) : Stated.wordsIn (Stated.bytesOf ws) = ws := by
  simp [Stated.wordsIn, Stated.bytesOf, Function.comp_def]

theorem bytesOf_wordsIn {bs : List Byte} (h : Stated.AllWords bs) : Stated.bytesOf (Stated.wordsIn bs) = bs := by
  rw [Stated.wordsIn, Stated.bytesOf, List.map_map]
  refine (List.map_congr_left (g := id) fun b hb => ?_).trans (List.map_id bs)
  have hle := h b hb
  exact BitVec.setWidth_setWidth_eq_self (by bv_omega)

@[simp] theorem length_wordsIn (bs : List Byte) : (Stated.wordsIn bs).length = bs.length := List.length_map _
@[simp] theorem length_bytesOf (ws : List Word5) : (Stated.bytesOf ws).length = ws.length := List.length_map _

/-! ### Case (R16, R104) -/

@[simp] theorem isAlnum_toLower (c : Byte) : isAlnum (toLower c) = isAlnum c := by
  revert c; decide

@[simp] theorem isUpper_toLower (c : Byte) : isUpper (toLower c) = false := by
  revert c; decide

theorem toLower_of_not_isUpper {c : Byte} (h : isUpper c = false) : toLower c = c :=
  if_neg (Bool.eq_false_iff.mp h)

theorem toLower_eq_separator_iff (c : Byte) : toLower c = 0x31#8 ↔ c = 0x31#8 := by
  revert c; decide

theorem map_toLower_of_not_isUpper {cs : List Byte} (h : ∀ c ∈ cs, isUpper c = false) : cs.map toLower = cs :=
  (List.map_congr_left (g := id) fun c hc => toLower_of_not_isUpper (h c hc)).trans (List.map_id cs)

/-! ### The charset (R101, R102) -/

@[simp] theorem inCharset_charsetChar (v : Word5) : inCharset (charsetChar v) = true := by
  revert v; decide

@[simp] theorem charsetIndex_charsetChar (v : Word5) : charsetIndex (charsetChar v) = v := by
  revert v; decide

theorem charsetChar_charsetIndex {c : Byte} : inCharset c = true → charsetChar (charsetIndex c) = c := by
  revert c; decide

theorem inCharset_eq_false_iff {c : Byte} : isAlnum c = true →
    (inCharset c = false ↔ c ∈ [0x31#8, 0x62#8, 0x69#8, 0x6F#8] ∨ isUpper c = true) := by
  revert c; decide

theorem isDigit_or_isLower_of_inCharset {c : Byte} : inCharset c = true → isDigit c = true ∨ isLower c = true := by
  revert c; decide

/-! ### The polymod is linear over GF(2) (R109, R110) -/

theorem ite_xor_eq_xor_ite (p : Bool) (c g : Checksum) :
    (if p then c ^^^ g else c) = c ^^^ (if p then g else 0#30) := by
  cases p <;> simp

/-- R110: the generators of the set bits, XORed together. -/
theorem foldGenerator_eq (b : BitVec 5) (chk : Checksum) : foldGenerator b chk = chk ^^^
    ((if b.getLsbD 0 then 0x3B6A57B2#30 else 0#30) ^^^ ((if b.getLsbD 1 then 0x26508E6D#30 else 0#30) ^^^
      ((if b.getLsbD 2 then 0x1EA119FA#30 else 0#30) ^^^ ((if b.getLsbD 3 then 0x3D4233DD#30 else 0#30) ^^^
        (if b.getLsbD 4 then 0x2A1462B3#30 else 0#30))))) := by
  have hrange : List.range 5 = [0, 1, 2, 3, 4] := rfl
  simp only [foldGenerator, hrange, List.foldl_cons, List.foldl_nil, ite_xor_eq_xor_ite, BitVec.xor_assoc, generator]

theorem foldGenerator_eq_xor (b : BitVec 5) (chk : Checksum) : foldGenerator b chk = chk ^^^ foldGenerator b 0#30 := by
  simp only [foldGenerator_eq, BitVec.zero_xor]

theorem foldGenerator_zero (chk : Checksum) : foldGenerator 0#5 chk = chk := by
  rw [foldGenerator_eq_xor]
  exact BitVec.xor_zero

theorem foldGenerator_xor (a b : BitVec 5) :
    foldGenerator (a ^^^ b) 0#30 = foldGenerator a 0#30 ^^^ foldGenerator b 0#30 := by
  revert a b; decide

/-- R110: the low 25 bits move up by a word, and the word takes their place. -/
theorem polymodStep_eq (chk : Checksum) (v : Word5) :
    polymodStep chk v = foldGenerator (chk.extractLsb' 25 5) (chk.extractLsb' 0 25 ++ v) := by
  have hshift (x : BitVec 25) : x.setWidth 30 <<< 5 = x ++ 0#5 :=
    (BitVec.shiftLeftZeroExtend_eq (n := 5)).symm.trans BitVec.or_zero.symm
  rw [polymodStep, hshift, ← zero_append_eq_setWidth (n := 25), BitVec.xor_append]
  simp

theorem polymodStep_xor (a b : Checksum) (v w : Word5) :
    polymodStep (a ^^^ b) (v ^^^ w) = polymodStep a v ^^^ polymodStep b w := by
  simp only [polymodStep_eq, BitVec.extractLsb'_xor, ← BitVec.xor_append, foldGenerator_eq_xor _ (_ ++ _),
    foldGenerator_eq_xor _ (_ ^^^ _), foldGenerator_xor]
  ac_rfl

/-- The polymod of a register and words is that of the register over zeros, XORed with that of the words alone. -/
theorem foldl_polymodStep_xor (a b : Checksum) (ws : List Word5) : ws.foldl polymodStep (a ^^^ b) =
    (List.replicate ws.length 0#5).foldl polymodStep a ^^^ ws.foldl polymodStep b := by
  induction ws generalizing a b with
  | nil => rfl
  | cons w ws ih =>
    have hstep := polymodStep_xor a b 0#5 w
    rw [BitVec.zero_xor] at hstep
    rw [List.foldl_cons, hstep, ih]
    rfl

/-- A word that differs changes the register, since it stands in the register's low five bits. -/
theorem polymodStep_right_injective (c : Checksum) : Function.Injective (polymodStep c) := fun v w h => by
  rw [polymodStep_eq, polymodStep_eq, foldGenerator_eq_xor, foldGenerator_eq_xor _ (_ ++ w), BitVec.xor_left_inj,
    BitVec.append_right_inj] at h
  exact h

/-- R109: the low five bits of the generators' sums are all different. -/
theorem eq_zero_of_setWidth_foldGenerator {b : BitVec 5} : (foldGenerator b 0#30).setWidth 5 = 0#5 → b = 0#5 := by
  revert b; decide

/-- A register that is not 0 is not 0 after a step: the generators' low bits show each of its top bits. -/
theorem eq_zero_of_polymodStep {c : Checksum} (h : polymodStep c 0#5 = 0#30) : c = 0#30 := by
  rw [polymodStep_eq] at h
  have htop : c.extractLsb' 25 5 = 0#5 := by
    apply eq_zero_of_setWidth_foldGenerator
    rw [foldGenerator_eq_xor, BitVec.xor_eq_zero_iff] at h
    rw [← h]
    exact BitVec.setWidth_append_eq_right
  rw [htop, foldGenerator_zero] at h
  have hlow : c.extractLsb' 0 25 = 0#25 := (BitVec.append_left_inj 0#5).mp h
  have hjoin : c.extractLsb' 25 5 ++ c.extractLsb' 0 25 = c := BitVec.extractLsb'_append_extractLsb'
  rw [htop, hlow] at hjoin
  exact hjoin.symm

theorem polymodStep_left_injective (v : Word5) : Function.Injective (fun c => polymodStep c v) := fun a b h => by
  have hxor := polymodStep_xor a b v v
  rw [BitVec.xor_self, BitVec.xor_eq_zero_iff.mpr h] at hxor
  exact BitVec.xor_eq_zero_iff.mp (eq_zero_of_polymodStep hxor)

theorem foldl_polymodStep_injective (ws : List Word5) : Function.Injective (fun c => ws.foldl polymodStep c) := by
  induction ws with
  | nil => exact Function.injective_id
  | cons w ws ih => exact ih.comp (polymodStep_left_injective w)

/-- R113: one word that differs changes the polymod. -/
theorem polymod_substitute_injective (xs ys : List Word5) :
    Function.Injective (fun v => polymod (xs ++ v :: ys)) := fun v w h => by
  simp only [polymod, List.foldl_append, List.foldl_cons] at h
  exact polymodStep_right_injective _ (foldl_polymodStep_injective ys h)

/-! ### The checksum (R111, R112) -/

/-- R110: while the register holds fewer than 26 bits a step only appends the word. -/
theorem polymodStep_setWidth {n : Nat} (hn : n ≤ 25) (x : BitVec n) (v : Word5) :
    polymodStep (x.setWidth 30) v = (x ++ v).setWidth 30 := by
  have hlt : x.toNat < 2 ^ 25 := Nat.lt_of_lt_of_le x.isLt (Nat.pow_le_pow_right (by decide) hn)
  have htop : (x.setWidth 30).extractLsb' 25 5 = 0#5 := by
    apply BitVec.eq_of_toNat_eq
    rw [BitVec.extractLsb'_toNat, BitVec.toNat_setWidth_of_le (by omega), Nat.shiftRight_eq_div_pow,
      Nat.div_eq_of_lt hlt]
    rfl
  rw [polymodStep_eq, htop, foldGenerator_zero]
  apply BitVec.eq_of_toNat_eq
  rw [BitVec.toNat_setWidth_of_le (by omega), BitVec.toNat_append, BitVec.toNat_append, BitVec.extractLsb'_toNat,
    BitVec.toNat_setWidth_of_le (by omega), Nat.shiftRight_zero, Nat.mod_eq_of_lt hlt]

/-- R110: six words from a register of 0 fill the register. -/
theorem foldl_polymodStep_six (c0 c1 c2 c3 c4 c5 : Word5) :
    [c0, c1, c2, c3, c4, c5].foldl polymodStep 0#30 = c0 ++ c1 ++ c2 ++ c3 ++ c4 ++ c5 := by
  have hfirst : polymodStep 0#30 c0 = c0.setWidth 30 := by
    have hempty := polymodStep_setWidth (by decide) 0#0 c0
    rwa [BitVec.zero_width_append] at hempty
  rw [List.foldl_cons, hfirst, List.foldl_cons, polymodStep_setWidth (by decide), List.foldl_cons,
    polymodStep_setWidth (by decide), List.foldl_cons, polymodStep_setWidth (by decide), List.foldl_cons,
    polymodStep_setWidth (by decide), List.foldl_cons, polymodStep_setWidth (by decide)]
  exact BitVec.setWidth_eq _

/-- R111: the six words side by side are the register. -/
theorem append_checksumWords (pm : Checksum) : pm.extractLsb' 25 5 ++ pm.extractLsb' 20 5 ++ pm.extractLsb' 15 5 ++
    pm.extractLsb' 10 5 ++ pm.extractLsb' 5 5 ++ pm.extractLsb' 0 5 = pm := by
  have hjoin (start len : Nat) : pm.extractLsb' (start + 5) len ++ pm.extractLsb' start 5 =
      pm.extractLsb' start (len + 5) := BitVec.extractLsb'_append_extractLsb'_eq_extractLsb' rfl
  rw [hjoin 20 5, hjoin 15 (5 + 5), hjoin 10, hjoin 5, hjoin 0]
  exact BitVec.extractLsb'_eq_self

theorem foldl_checksumWords (pm : Checksum) : (checksumWords pm).foldl polymodStep 0#30 = pm := by
  rw [checksumWords, foldl_polymodStep_six, append_checksumWords]

theorem bitVec_append_inj {n m : Nat} {x y : BitVec n} {v w : BitVec m} (h : x ++ v = y ++ w) : x = y ∧ v = w := by
  have hv : v = w := by simpa only [BitVec.extractLsb'_append_eq_right] using congrArg (BitVec.extractLsb' 0 m) h
  subst hv
  exact ⟨(BitVec.append_left_inj v).mp h, rfl⟩

/-- R111: the six words of a register are the ones that fill it. -/
theorem checksumWords_append (c0 c1 c2 c3 c4 c5 : Word5) :
    checksumWords (c0 ++ c1 ++ c2 ++ c3 ++ c4 ++ c5) = [c0, c1, c2, c3, c4, c5] := by
  obtain ⟨h, h5⟩ := bitVec_append_inj (append_checksumWords (c0 ++ c1 ++ c2 ++ c3 ++ c4 ++ c5))
  obtain ⟨h, h4⟩ := bitVec_append_inj h
  obtain ⟨h, h3⟩ := bitVec_append_inj h
  obtain ⟨h, h2⟩ := bitVec_append_inj h
  obtain ⟨h0, h1⟩ := bitVec_append_inj h
  rw [checksumWords, h0, h1, h2, h3, h4, h5]

theorem checksumWords_foldl {cs : List Word5} (h : cs.length = 6) : checksumWords (cs.foldl polymodStep 0#30) = cs := by
  match cs, h with
  | [c0, c1, c2, c3, c4, c5], _ => rw [foldl_polymodStep_six, checksumWords_append]

theorem length_createChecksum (hrp : List Byte) (data : List Word5) : (createChecksum hrp data).length = 6 := rfl

/-- The register after six more words: the zeros of R111 move it on, the words fill what they leave. -/
theorem polymod_append_six (vs : List Word5) {cs : List Word5} (h : cs.length = 6) :
    polymod (vs ++ cs) = polymod (vs ++ List.replicate 6 0#5) ^^^ cs.foldl polymodStep 0#30 := by
  have hxor := foldl_polymodStep_xor (polymod vs) 0#30 cs
  rw [BitVec.xor_zero, h] at hxor
  rw [polymod, List.foldl_append, polymod, List.foldl_append]
  exact hxor

theorem verifyChecksum_iff (hrp : List Byte) (data : List Word5) :
    verifyChecksum hrp data = true ↔ polymod (hrpExpand hrp ++ data) = 1#30 := beq_iff_eq

/-- R111, R112: of all six words after the data only the created checksum verifies. -/
theorem verifyChecksum_append_iff (hrp : List Byte) (data : List Word5) {cs : List Word5} (h : cs.length = 6) :
    verifyChecksum hrp (data ++ cs) = true ↔ cs = createChecksum hrp data := by
  rw [verifyChecksum_iff, ← List.append_assoc, polymod_append_six _ h, createChecksum]
  generalize polymod (hrpExpand hrp ++ data ++ List.replicate 6 0#5) = pm
  constructor
  · intro hone
    rw [← hone, ← BitVec.xor_assoc, BitVec.xor_self, BitVec.zero_xor, checksumWords_foldl h]
  · rintro rfl
    rw [foldl_checksumWords, ← BitVec.xor_assoc, BitVec.xor_self, BitVec.zero_xor]

/-! ### B32_ENC's command function (R115) -/

/-- R115: the operands pass every check of B32_ENC. -/
structure Encodes (h : Nat) (inb : List Byte) : Prop where
  le    : h ≤ inb.length
  pos   : h ≠ 0
  alnum : ∀ c ∈ inb.take h, isAlnum c = true
  words : Stated.AllWords (inb.drop h)
  fits  : h + 1 + (inb.drop h).length + 6 ≤ 90

/-- R100: the characters of an HRP, the separator, and words in the charset. -/
def bech32String (hrp : List Byte) (data : List Word5) : List Byte := hrp ++ [0x31#8] ++ data.map charsetChar

/-- R115: the string B32_ENC makes of an HRP and words. -/
def encodedString (hrp : List Byte) (words : List Word5) : List Byte :=
  bech32String hrp (words ++ createChecksum hrp words)

theorem length_bech32String (hrp : List Byte) (data : List Word5) :
    (bech32String hrp data).length = hrp.length + 1 + data.length := by
  simp [bech32String, Nat.add_assoc, Nat.add_comm 1]

theorem length_encodedString (hrp : List Byte) (words : List Word5) :
    (encodedString hrp words).length = hrp.length + 1 + words.length + 6 := by
  rw [encodedString, length_bech32String, List.length_append, length_createChecksum, Nat.add_assoc _ words.length]

section
variable {h : Nat} {inb : List Byte}

theorem b32EncFn_length (hlen : inb.length < h) : b32EncFn h inb = .error .length := if_pos hlen

theorem b32EncFn_emptyHrp (inb : List Byte) : b32EncFn 0 inb = .error .emptyHrp := by simp [b32EncFn]

theorem b32EncFn_badChar (hle : h ≤ inb.length) (hpos : h ≠ 0) (hc : ∃ c ∈ inb.take h, isAlnum c = false) :
    b32EncFn h inb = .error .badChar := by
  have hall : (hrpOperand h inb).all isAlnum = false := List.all_eq_false.mpr (by simpa [hrpOperand] using hc)
  simp [b32EncFn, hle, hpos, hall]

theorem b32EncFn_badWord (hle : h ≤ inb.length) (hpos : h ≠ 0) (hc : ∀ c ∈ inb.take h, isAlnum c = true)
    (hw : ¬ Stated.AllWords (inb.drop h)) : b32EncFn h inb = .error .badWord := by
  have hall : (hrpOperand h inb).all isAlnum = true := List.all_eq_true.mpr hc
  have hnone : asWords (wordsOperand h inb) = none := asWords_of_not_allWords hw
  simp [b32EncFn, hle, hpos, hall, hnone]

/-- R115: with an HRP and words that pass, the length decides. -/
theorem b32EncFn_of_words (hle : h ≤ inb.length) (hpos : h ≠ 0) (hc : ∀ c ∈ inb.take h, isAlnum c = true)
    (hw : Stated.AllWords (inb.drop h)) : b32EncFn h inb =
      if 90 < h + 1 + (inb.drop h).length + 6 then .error .tooLong
      else .ok (encodedString ((inb.take h).map toLower) (Stated.wordsIn (inb.drop h))) 0x00000000#32 := by
  have hall : (hrpOperand h inb).all isAlnum = true := List.all_eq_true.mpr hc
  have hsome : asWords (wordsOperand h inb) = some (Stated.wordsIn (inb.drop h)) := asWords_of_allWords hw
  simp only [b32EncFn, if_neg (Nat.not_lt.mpr hle), if_neg hpos, hall, hsome, length_wordsIn]
  rfl

theorem b32EncFn_tooLong (hle : h ≤ inb.length) (hpos : h ≠ 0) (hc : ∀ c ∈ inb.take h, isAlnum c = true)
    (hw : Stated.AllWords (inb.drop h)) (hlong : 90 < h + 1 + (inb.drop h).length + 6) :
    b32EncFn h inb = .error .tooLong := by
  rw [b32EncFn_of_words hle hpos hc hw, if_pos hlong]

theorem b32EncFn_of_encodes (e : Encodes h inb) : b32EncFn h inb =
    .ok (encodedString ((inb.take h).map toLower) (Stated.wordsIn (inb.drop h))) 0x00000000#32 := by
  rw [b32EncFn_of_words e.le e.pos e.alnum e.words, if_neg (Nat.not_lt.mpr e.fits)]

/-- R115: B32_ENC succeeds only where every check passes. -/
theorem encodes_of_b32EncFn_ok {out : List Byte} {r : Word} (hok : b32EncFn h inb = .ok out r) : Encodes h inb := by
  have hle : h ≤ inb.length := by
    by_contra hn
    simp [b32EncFn_length (Nat.lt_of_not_le hn)] at hok
  have hpos : h ≠ 0 := by
    rintro rfl
    simp [b32EncFn_emptyHrp] at hok
  have halnum : ∀ c ∈ inb.take h, isAlnum c = true := by
    by_contra hn
    simp [b32EncFn_badChar hle hpos (by simpa using hn)] at hok
  have hw : Stated.AllWords (inb.drop h) := by
    by_contra hn
    simp [b32EncFn_badWord hle hpos halnum hn] at hok
  refine ⟨hle, hpos, halnum, hw, ?_⟩
  by_contra hn
  simp [b32EncFn_tooLong hle hpos halnum hw (Nat.lt_of_not_le hn)] at hok

end

/-! ### B32_DEC's command function (R119, R120) -/

/-- R119: a lowercased string with its separator at `p` passes the checks after the separator is found. -/
structure SplitDecodes (t : List Byte) (p : Nat) : Prop where
  pos      : p ≠ 0
  six      : 6 ≤ (t.drop (p + 1)).length
  fits     : t.length ≤ 90
  charset  : ∀ c ∈ t.drop (p + 1), inCharset c = true
  checksum : verifyChecksum (t.take p) ((t.drop (p + 1)).map charsetIndex) = true

/-- R119: the input passes every check of B32_DEC, with its last `1` at `p`. -/
structure Decodes (inb : List Byte) (p : Nat) : Prop where
  alnum   : ∀ c ∈ inb, isAlnum c = true
  oneCase : ¬ Stated.Mixed inb
  lastOne : Stated.LastOne (inb.map toLower) p
  split   : SplitDecodes (inb.map toLower) p

/-- R121: what B32_DEC puts out for the lowercased string. -/
def decodedOutput (t : List Byte) (p : Nat) : List Byte :=
  t.take p ++ Stated.bytesOf (((t.drop (p + 1)).map charsetIndex).take ((t.drop (p + 1)).length - 6))

section
variable {t : List Byte} {p : Nat}

theorem b32DecSplit_emptyHrp (t : List Byte) : b32DecSplit t 0 = .error .emptyHrp := by simp [b32DecSplit]

theorem length_drop_succ (t : List Byte) (p : Nat) : t.length - p - 1 = (t.drop (p + 1)).length := by
  rw [List.length_drop, Nat.sub_sub]

theorem b32DecSplit_shortData (hpos : p ≠ 0) (hshort : (t.drop (p + 1)).length < 6) :
    b32DecSplit t p = .error .shortData := by
  rw [b32DecSplit, if_neg hpos, length_drop_succ, if_pos hshort]

theorem b32DecSplit_tooLong (hpos : p ≠ 0) (hsix : 6 ≤ (t.drop (p + 1)).length) (hlong : 90 < t.length) :
    b32DecSplit t p = .error .tooLong := by
  rw [b32DecSplit, if_neg hpos, length_drop_succ, if_neg (Nat.not_lt.mpr hsix), if_pos hlong]

/-- R119: with lengths that pass, the data characters and their checksum decide. -/
theorem b32DecSplit_of_lengths (hpos : p ≠ 0) (hsix : 6 ≤ (t.drop (p + 1)).length) (hfits : t.length ≤ 90) :
    b32DecSplit t p =
      if !(t.drop (p + 1)).all inCharset then .error .badDataChar
      else if !verifyChecksum (t.take p) ((t.drop (p + 1)).map charsetIndex) then .error .badChecksum
      else .ok (decodedOutput t p) (BitVec.ofNat 32 p) := by
  simp only [b32DecSplit, if_neg hpos, length_drop_succ, if_neg (Nat.not_lt.mpr hsix),
    if_neg (Nat.not_lt.mpr hfits), List.length_map]
  rfl

theorem b32DecSplit_badDataChar (hpos : p ≠ 0) (hsix : 6 ≤ (t.drop (p + 1)).length) (hfits : t.length ≤ 90)
    (hc : ∃ c ∈ t.drop (p + 1), inCharset c = false) : b32DecSplit t p = .error .badDataChar := by
  have hall : (t.drop (p + 1)).all inCharset = false := List.all_eq_false.mpr (by simpa using hc)
  simp [b32DecSplit_of_lengths hpos hsix hfits, hall]

theorem b32DecSplit_badChecksum (hpos : p ≠ 0) (hsix : 6 ≤ (t.drop (p + 1)).length) (hfits : t.length ≤ 90)
    (hc : ∀ c ∈ t.drop (p + 1), inCharset c = true)
    (hv : verifyChecksum (t.take p) ((t.drop (p + 1)).map charsetIndex) = false) :
    b32DecSplit t p = .error .badChecksum := by
  have hall : (t.drop (p + 1)).all inCharset = true := List.all_eq_true.mpr hc
  rw [b32DecSplit_of_lengths hpos hsix hfits, hall, hv]
  rfl

theorem b32DecSplit_of_decodes (d : SplitDecodes t p) :
    b32DecSplit t p = .ok (decodedOutput t p) (BitVec.ofNat 32 p) := by
  have hall : (t.drop (p + 1)).all inCharset = true := List.all_eq_true.mpr d.charset
  rw [b32DecSplit_of_lengths d.pos d.six d.fits, hall, d.checksum]
  rfl

theorem splitDecodes_of_b32DecSplit_ok {out : List Byte} {r : Word} (hok : b32DecSplit t p = .ok out r) :
    SplitDecodes t p := by
  have hpos : p ≠ 0 := by
    rintro rfl
    simp [b32DecSplit_emptyHrp] at hok
  have hsix : 6 ≤ (t.drop (p + 1)).length := by
    by_contra hn
    simp [b32DecSplit_shortData hpos (Nat.lt_of_not_le hn)] at hok
  have hfits : t.length ≤ 90 := by
    by_contra hn
    simp [b32DecSplit_tooLong hpos hsix (Nat.lt_of_not_le hn)] at hok
  have hc : ∀ c ∈ t.drop (p + 1), inCharset c = true := by
    by_contra hn
    simp [b32DecSplit_badDataChar hpos hsix hfits (by simpa using hn)] at hok
  refine ⟨hpos, hsix, hfits, hc, ?_⟩
  by_contra hn
  simp [b32DecSplit_badChecksum hpos hsix hfits hc (Bool.eq_false_iff.mpr hn)] at hok

end

section
variable {inb : List Byte} {p : Nat}

theorem b32DecFn_badChar (hc : ∃ c ∈ inb, isAlnum c = false) : b32DecFn inb = .error .badChar := by
  have hall : inb.all isAlnum = false := List.all_eq_false.mpr (by simpa using hc)
  simp [b32DecFn, hall]

theorem mixed_iff (bs : List Byte) : Stated.Mixed bs ↔ (bs.any isLower && bs.any isUpper) = true := by
  simp only [Stated.Mixed, Bool.and_eq_true, List.any_eq_true]

theorem b32DecFn_mixedCase (halnum : ∀ c ∈ inb, isAlnum c = true) (hmix : Stated.Mixed inb) :
    b32DecFn inb = .error .mixedCase := by
  have hall : inb.all isAlnum = true := List.all_eq_true.mpr halnum
  simp [b32DecFn, hall, (mixed_iff inb).mp hmix]

theorem b32DecFn_noSep (halnum : ∀ c ∈ inb, isAlnum c = true) (hcase : ¬ Stated.Mixed inb)
    (hsep : 0x31#8 ∉ inb.map toLower) : b32DecFn inb = .error .noSep := by
  have hall : inb.all isAlnum = true := List.all_eq_true.mpr halnum
  have hnone : lastIndexOf separator (inb.map toLower) = none := (lastIndexOf_eq_none_iff separator _).mpr hsep
  rw [mixed_iff] at hcase
  simp only [b32DecFn, hall, if_neg hcase, hnone]
  rfl

/-- R119: a string of one case with a separator is read as its lowercase form, split there. -/
theorem b32DecFn_of_lastOne (halnum : ∀ c ∈ inb, isAlnum c = true) (hcase : ¬ Stated.Mixed inb)
    (hlast : Stated.LastOne (inb.map toLower) p) : b32DecFn inb = b32DecSplit (inb.map toLower) p := by
  have hall : inb.all isAlnum = true := List.all_eq_true.mpr halnum
  have hsome : lastIndexOf separator (inb.map toLower) = some p := (lastIndexOf_eq_some_iff separator _ p).mpr hlast
  rw [mixed_iff] at hcase
  simp only [b32DecFn, hall, if_neg hcase, hsome]
  rfl

theorem b32DecFn_of_decodes (d : Decodes inb p) :
    b32DecFn inb = .ok (decodedOutput (inb.map toLower) p) (BitVec.ofNat 32 p) := by
  rw [b32DecFn_of_lastOne d.alnum d.oneCase d.lastOne, b32DecSplit_of_decodes d.split]

/-- R119: B32_DEC succeeds only where every check passes. -/
theorem exists_decodes_of_b32DecFn_ok {out : List Byte} {r : Word} (hok : b32DecFn inb = .ok out r) :
    ∃ p, Decodes inb p := by
  have halnum : ∀ c ∈ inb, isAlnum c = true := by
    by_contra hn
    simp [b32DecFn_badChar (by simpa using hn)] at hok
  have hcase : ¬ Stated.Mixed inb := fun hmix => by simp [b32DecFn_mixedCase halnum hmix] at hok
  cases hp : lastIndexOf separator (inb.map toLower) with
  | none =>
    simp [b32DecFn_noSep halnum hcase ((lastIndexOf_eq_none_iff separator _).mp hp)] at hok
  | some p =>
    have hlast : Stated.LastOne (inb.map toLower) p := (lastIndexOf_eq_some_iff separator _ p).mp hp
    rw [b32DecFn_of_lastOne halnum hcase hlast] at hok
    exact ⟨p, halnum, hcase, hlast, splitDecodes_of_b32DecSplit_ok hok⟩

end

/-! ### The string of an HRP and words, written and read (R100, R105) -/

/-- R100: what an HRP is: a lowercase alphanumeric string that is not empty. -/
structure IsHrp (hrp : List Byte) : Prop where
  nonempty : hrp ≠ []
  alnum    : ∀ c ∈ hrp, isAlnum c = true
  notUpper : ∀ c ∈ hrp, isUpper c = false

theorem isHrp_map_toLower {cs : List Byte} (hne : cs ≠ []) (h : ∀ c ∈ cs, isAlnum c = true) :
    IsHrp (cs.map toLower) where
  nonempty := mt List.map_eq_nil_iff.mp hne
  alnum := by simpa using h
  notUpper := by simp

theorem charsetChar_ne_separator (v : Word5) : charsetChar v ≠ 0x31#8 := by
  revert v; decide

theorem isAlnum_charsetChar (v : Word5) : isAlnum (charsetChar v) = true := by
  revert v; decide

theorem isUpper_charsetChar (v : Word5) : isUpper (charsetChar v) = false := by
  revert v; decide

theorem map_charsetIndex_charsetChar (ws : List Word5) : (ws.map charsetChar).map charsetIndex = ws := by
  simp [Function.comp_def]

theorem map_charsetChar_charsetIndex {cs : List Byte} (h : ∀ c ∈ cs, inCharset c = true) :
    (cs.map charsetIndex).map charsetChar = cs := by
  rw [List.map_map]
  exact (List.map_congr_left (g := id) fun c hc => charsetChar_charsetIndex (h c hc)).trans (List.map_id cs)

theorem take_bech32String (hrp : List Byte) (data : List Word5) : (bech32String hrp data).take hrp.length = hrp := by
  simp [bech32String]

theorem drop_bech32String (hrp : List Byte) (data : List Word5) :
    (bech32String hrp data).drop (hrp.length + 1) = data.map charsetChar :=
  List.drop_left' (by simp)

/-- R105: the separator of R100 is the last `1`, since the charset has none. -/
theorem lastOne_bech32String (hrp : List Byte) (data : List Word5) :
    Stated.LastOne (bech32String hrp data) hrp.length := by
  refine ⟨by simp [bech32String], fun j hj hsep => ?_⟩
  obtain ⟨i, rfl⟩ := Nat.exists_eq_add_of_lt hj
  have hchar : (data.map charsetChar)[i]? = some 0x31#8 := by
    rw [← drop_bech32String hrp, List.getElem?_drop, Nat.add_right_comm]
    exact hsep
  obtain ⟨v, -, hv⟩ := List.mem_map.mp (List.mem_of_getElem? hchar)
  exact charsetChar_ne_separator v hv

theorem mem_bech32String {hrp : List Byte} {data : List Word5} {c : Byte} (h : c ∈ bech32String hrp data) :
    c ∈ hrp ∨ c = 0x31#8 ∨ ∃ v, c = charsetChar v := by
  simp only [bech32String, List.append_assoc, List.mem_append, List.mem_singleton, List.mem_map] at h
  obtain h | h | ⟨v, -, hv⟩ := h
  · exact .inl h
  · exact .inr (.inl h)
  · exact .inr (.inr ⟨v, hv.symm⟩)

theorem isAlnum_of_mem_bech32String {hrp : List Byte} (hhrp : IsHrp hrp) {data : List Word5} :
    ∀ c ∈ bech32String hrp data, isAlnum c = true := fun c hc => by
  obtain h | rfl | ⟨v, rfl⟩ := mem_bech32String hc
  · exact hhrp.alnum c h
  · rfl
  · exact isAlnum_charsetChar v

theorem isUpper_of_mem_bech32String {hrp : List Byte} (hhrp : IsHrp hrp) {data : List Word5} :
    ∀ c ∈ bech32String hrp data, isUpper c = false := fun c hc => by
  obtain h | rfl | ⟨v, rfl⟩ := mem_bech32String hc
  · exact hhrp.notUpper c h
  · rfl
  · exact isUpper_charsetChar v

theorem not_mixed_of_not_isUpper {bs : List Byte} (h : ∀ c ∈ bs, isUpper c = false) : ¬ Stated.Mixed bs := by
  rintro ⟨-, c, hc, hup⟩
  rw [h c hc] at hup
  cases hup

/-- R119: B32_DEC reads a string of R100 whose checksum verifies. -/
theorem decodes_bech32String {hrp : List Byte} {data : List Word5} (hhrp : IsHrp hrp) (hsix : 6 ≤ data.length)
    (hfits : hrp.length + 1 + data.length ≤ 90) (hsum : verifyChecksum hrp data = true) :
    Decodes (bech32String hrp data) hrp.length where
  alnum := isAlnum_of_mem_bech32String hhrp
  oneCase := not_mixed_of_not_isUpper (isUpper_of_mem_bech32String hhrp)
  lastOne := by
    rw [map_toLower_of_not_isUpper (isUpper_of_mem_bech32String hhrp)]
    exact lastOne_bech32String hrp data
  split := by
    rw [map_toLower_of_not_isUpper (isUpper_of_mem_bech32String hhrp)]
    exact {
      pos := mt List.length_eq_zero_iff.mp hhrp.nonempty
      six := by rwa [drop_bech32String, List.length_map]
      fits := by rwa [length_bech32String]
      charset := by rw [drop_bech32String]; simp
      checksum := by rwa [take_bech32String, drop_bech32String, map_charsetIndex_charsetChar] }

theorem decodedOutput_bech32String (hrp : List Byte) (words : List Word5) {cs : List Word5} (h : cs.length = 6) :
    decodedOutput (bech32String hrp (words ++ cs)) hrp.length = hrp ++ Stated.bytesOf words := by
  rw [decodedOutput, take_bech32String, drop_bech32String, map_charsetIndex_charsetChar, List.length_map,
    List.length_append, h, Nat.add_sub_cancel, List.take_left]

section
variable {inb : List Byte} {p : Nat}

/-- R105: the HRP ends where the separator stands. -/
theorem Decodes.lt_length (d : Decodes inb p) : p < inb.length := by
  have hlt := (List.getElem?_eq_some_iff.mp d.lastOne.1).1
  rwa [List.length_map] at hlt

theorem Decodes.length_hrp (d : Decodes inb p) : ((inb.map toLower).take p).length = p := by
  rw [List.length_take, List.length_map, Nat.min_eq_left (Nat.le_of_lt d.lt_length)]

theorem Decodes.isHrp (d : Decodes inb p) : IsHrp ((inb.map toLower).take p) := by
  rw [← List.map_take]
  refine isHrp_map_toLower ?_ fun c hc => d.alnum c (List.mem_of_mem_take hc)
  have hlt := d.lt_length
  have hpos := d.split.pos
  rw [← List.length_pos_iff, List.length_take]
  omega

/-- R119: an input that decodes is, in lowercase, the string of its HRP and its words. -/
theorem Decodes.eq_bech32String (d : Decodes inb p) : inb.map toLower =
    bech32String ((inb.map toLower).take p) (((inb.map toLower).drop (p + 1)).map charsetIndex) := by
  obtain ⟨hlt, hsep⟩ := List.getElem?_eq_some_iff.mp d.lastOne.1
  rw [bech32String, map_charsetChar_charsetIndex d.split.charset, ← hsep, ← List.take_succ_eq_append_getElem hlt,
    List.take_append_drop]

theorem Decodes.length_data (d : Decodes inb p) :
    p + 1 + (((inb.map toLower).drop (p + 1)).map charsetIndex).length = inb.length := by
  have hlt := d.lt_length
  rw [List.length_map, List.length_drop, List.length_map]
  omega

end

/-! ### Encoding and decoding are inverse (R129) -/

/-- R100, R103: an HRP and words that a bech32 string can hold. -/
structure FitsBech32 (hrp : List Byte) (words : List Word5) : Prop extends IsHrp hrp where
  fits : hrp.length + 1 + words.length + 6 ≤ 90

section
variable {hrp : List Byte} {words : List Word5}

theorem FitsBech32.encodes (e : FitsBech32 hrp words) : Encodes hrp.length (hrp ++ Stated.bytesOf words) where
  le := by simp
  pos := mt List.length_eq_zero_iff.mp e.nonempty
  alnum := by rw [List.take_left]; exact e.alnum
  words := by rw [List.drop_left]; exact allWords_bytesOf words
  fits := by rw [List.drop_left, length_bytesOf]; exact e.fits

/-- R115: B32_ENC of an HRP and words in OUT's layout (R121). -/
theorem FitsBech32.b32EncFn_eq (e : FitsBech32 hrp words) :
    b32EncFn hrp.length (hrp ++ Stated.bytesOf words) = .ok (encodedString hrp words) 0x00000000#32 := by
  rw [b32EncFn_of_encodes e.encodes, List.take_left, List.drop_left, map_toLower_of_not_isUpper e.notUpper,
    wordsIn_bytesOf]

theorem FitsBech32.decodes (e : FitsBech32 hrp words) : Decodes (encodedString hrp words) hrp.length := by
  have hlen : (words ++ createChecksum hrp words).length = words.length + 6 := by
    rw [List.length_append, length_createChecksum]
  have hfits := e.fits
  have hsum := (verifyChecksum_append_iff hrp words (length_createChecksum hrp words)).mpr rfl
  exact decodes_bech32String e.toIsHrp (by omega) (by omega) hsum

theorem FitsBech32.map_toLower_encodedString (e : FitsBech32 hrp words) :
    (encodedString hrp words).map toLower = encodedString hrp words :=
  map_toLower_of_not_isUpper (isUpper_of_mem_bech32String e.toIsHrp)

/-- R129: what B32_ENC writes B32_DEC reads. -/
theorem FitsBech32.b32DecFn_eq (e : FitsBech32 hrp words) :
    b32DecFn (encodedString hrp words) = .ok (hrp ++ Stated.bytesOf words) (BitVec.ofNat 32 hrp.length) := by
  rw [b32DecFn_of_decodes e.decodes, e.map_toLower_encodedString, encodedString,
    decodedOutput_bech32String hrp words (length_createChecksum hrp words)]

theorem FitsBech32.length_le (e : FitsBech32 hrp words) {bs : List Byte}
    (h : bs.map toLower = encodedString hrp words) : bs.length ≤ 90 := by
  rw [← List.length_map toLower, h, length_encodedString]
  exact e.fits

theorem FitsBech32.length_output_le (e : FitsBech32 hrp words) : (hrp ++ Stated.bytesOf words).length ≤ 83 := by
  have hfits := e.fits
  rw [List.length_append, length_bytesOf]
  omega

/-- R121: the length of an HRP that fits is RESULT's value. -/
theorem FitsBech32.toNat_length_hrp (e : FitsBech32 hrp words) : (BitVec.ofNat 32 hrp.length).toNat = hrp.length := by
  have hfits := e.fits
  rw [BitVec.toNat_ofNat]
  omega

end

/-- R115: everything a success of B32_ENC can be. -/
theorem exists_fitsBech32_of_b32EncFn_ok {h : Nat} {inb out : List Byte} {r : Word} (hok : b32EncFn h inb = .ok out r) :
    ∃ hrp words, FitsBech32 hrp words ∧ hrp.length = h ∧
      (inb.take h).map toLower ++ inb.drop h = hrp ++ Stated.bytesOf words ∧ out = encodedString hrp words := by
  have e := encodes_of_b32EncFn_ok hok
  rw [b32EncFn_of_encodes e] at hok
  have hlen : ((inb.take h).map toLower).length = h := by
    rw [List.length_map, List.length_take, Nat.min_eq_left e.le]
  have hne : inb.take h ≠ [] := by
    rw [← List.length_pos_iff, List.length_take, Nat.min_eq_left e.le]
    exact Nat.pos_of_ne_zero e.pos
  refine ⟨_, Stated.wordsIn (inb.drop h), ⟨isHrp_map_toLower hne e.alnum, ?_⟩, hlen, ?_,
    (CmdResult.ok.inj hok).1.symm⟩
  · rw [hlen, length_wordsIn]
    exact e.fits
  · rw [bytesOf_wordsIn e.words]

/-- R129: an input that decodes is, in lowercase, what B32_ENC writes, since only the created checksum verifies. -/
theorem Decodes.exists_fitsBech32 {inb : List Byte} {p : Nat} (d : Decodes inb p) :
    ∃ hrp words, FitsBech32 hrp words ∧ hrp.length = p ∧ inb.map toLower = encodedString hrp words := by
  have hlen := d.length_data
  have hsix := d.split.six
  have hfits := d.split.fits
  have hsum := d.split.checksum
  have hstr := d.eq_bech32String
  rw [List.length_map] at hfits
  rw [← List.length_map charsetIndex] at hsix
  generalize ((inb.map toLower).drop (p + 1)).map charsetIndex = data at *
  have hsplit : data.take (data.length - 6) ++ data.drop (data.length - 6) = data := List.take_append_drop ..
  have hcs : data.drop (data.length - 6) = createChecksum ((inb.map toLower).take p) (data.take (data.length - 6)) := by
    rw [← hsplit] at hsum
    exact (verifyChecksum_append_iff _ _ (by rw [List.length_drop]; omega)).mp hsum
  refine ⟨_, data.take (data.length - 6), ⟨d.isHrp, ?_⟩, d.length_hrp, ?_⟩
  · rw [d.length_hrp, List.length_take]
    omega
  · rw [encodedString, ← hcs, hsplit]
    exact hstr

/-- R119, R121: everything a success of B32_DEC can be. -/
theorem exists_fitsBech32_of_b32DecFn_ok {inb out : List Byte} {r : Word} (hok : b32DecFn inb = .ok out r) :
    ∃ hrp words, FitsBech32 hrp words ∧ Decodes inb hrp.length ∧ inb.map toLower = encodedString hrp words ∧
      out = hrp ++ Stated.bytesOf words ∧ r = BitVec.ofNat 32 hrp.length := by
  obtain ⟨p, d⟩ := exists_decodes_of_b32DecFn_ok hok
  obtain ⟨hrp, words, e, rfl, hstr⟩ := d.exists_fitsBech32
  rw [b32DecFn_of_decodes d, hstr, encodedString,
    decodedOutput_bech32String hrp words (length_createChecksum hrp words)] at hok
  obtain ⟨hout, hr⟩ := CmdResult.ok.inj hok
  exact ⟨hrp, words, e, d, hstr, hout.symm, hr.symm⟩

theorem inlen_le_of_input {s : State} {bs : List Byte} {n m : Nat} (h : input s = bs) (hn : bs.length ≤ n)
    (hm : n ≤ m) : s.inlen.toNat ≤ m := by
  rw [← length_input, h]
  exact Nat.le_trans hn hm

/-- R119: what is known of a state once B32_DEC has ended without an error. -/
theorem exists_fitsBech32_of_exec_b32Dec {s t : State} (hexec : exec .b32Dec s = .next t) (herr : t.err = false) :
    ∃ hrp words, FitsBech32 hrp words ∧ Decodes (input s) hrp.length ∧
      (input s).map toLower = encodedString hrp words ∧
      t = finishOk (hrp ++ Stated.bytesOf words) (BitVec.ofNat 32 hrp.length) s := by
  obtain ⟨out, r, hf, -, rfl⟩ := exists_ok_of_err_eq_false hexec herr
  obtain ⟨hrp, words, e, d, hstr, rfl, rfl⟩ := exists_fitsBech32_of_b32DecFn_ok hf
  exact ⟨hrp, words, e, d, hstr, rfl⟩

/-! ### A character replaced (R113) -/

/-- R113: a data part in which one word differs has another polymod. -/
theorem polymod_set_ne {xs ws : List Word5} {i : Nat} {v : Word5} (hi : i < ws.length) (hv : v ≠ ws[i]) :
    polymod (xs ++ ws.set i v) ≠ polymod (xs ++ ws) := by
  have hset : xs ++ ws.set i v = (xs ++ ws.take i) ++ v :: ws.drop (i + 1) := by
    rw [List.set_eq_take_append_cons_drop, if_pos hi, List.append_assoc]
  have hsame : xs ++ ws = (xs ++ ws.take i) ++ ws[i] :: ws.drop (i + 1) := by
    rw [← List.drop_eq_getElem_cons hi, List.append_assoc, List.take_append_drop]
  rw [hset, hsame]
  exact fun heq => hv (polymod_substitute_injective _ _ heq)

theorem charsetIndex_injOn {c d : Byte} (hc : inCharset c = true) (hd : inCharset d = true)
    (h : charsetIndex c = charsetIndex d) : c = d := by
  rw [← charsetChar_charsetIndex hc, h, charsetChar_charsetIndex hd]

theorem lastOne_set_of_ne {t : List Byte} {p k : Nat} {x : Byte} (h : Stated.LastOne t p) (hpk : p < k)
    (hx : x ≠ 0x31#8) : Stated.LastOne (t.set k x) p := by
  obtain ⟨hsep, hlast⟩ := h
  refine ⟨by rwa [List.getElem?_set_ne (Nat.ne_of_gt hpk)], fun j hj => ?_⟩
  rw [List.getElem?_set]
  split_ifs
  · simpa using hx
  · simp
  · exact hlast j hj

theorem lastOne_set_separator {t : List Byte} {p k : Nat} (h : Stated.LastOne t p) (hpk : p < k) (hk : k < t.length) :
    Stated.LastOne (t.set k 0x31#8) k := by
  refine ⟨List.getElem?_set_self hk, fun j hj => ?_⟩
  rw [List.getElem?_set_ne (Nat.ne_of_lt hj)]
  exact h.2 j (Nat.lt_trans hpk hj)

section
variable {t : List Byte} {p k : Nat} {x : Byte}

theorem drop_set_data (hpk : p < k) : (t.set k x).drop (p + 1) = (t.drop (p + 1)).set (k - (p + 1)) x := by
  rw [List.drop_set, if_neg (by omega)]

/-- R113: a character outside the charset in a data part that passes. -/
theorem SplitDecodes.set_badDataChar (d : SplitDecodes t p) (hpk : p < k) (hk : k < t.length)
    (hx : inCharset x = false) : b32DecSplit (t.set k x) p = .error .badDataChar := by
  have hi : k - (p + 1) < (t.drop (p + 1)).length := by rw [List.length_drop]; omega
  refine b32DecSplit_badDataChar d.pos (by simpa using d.six) (by simpa using d.fits) ⟨x, ?_, hx⟩
  rw [drop_set_data hpk]
  exact List.mem_set hi x

/-- R113: another character of the charset in a data part that passes. -/
theorem SplitDecodes.set_badChecksum (d : SplitDecodes t p) (hpk : p < k) (hk : k < t.length)
    (hx : inCharset x = true) (hne : x ≠ t[k]) : b32DecSplit (t.set k x) p = .error .badChecksum := by
  have hi : k - (p + 1) < (t.drop (p + 1)).length := by rw [List.length_drop]; omega
  have hget : (t.drop (p + 1))[k - (p + 1)] = t[k] := by
    rw [List.getElem_drop]
    congr 1
    omega
  refine b32DecSplit_badChecksum d.pos (by simpa using d.six) (by simpa using d.fits) ?_ ?_
  · rw [drop_set_data hpk]
    intro c hc
    obtain hc | rfl := List.mem_or_eq_of_mem_set hc
    · exact d.charset c hc
    · exact hx
  · rw [drop_set_data hpk, List.take_set_of_le (Nat.le_of_lt hpk), List.map_set, Bool.eq_false_iff, Ne,
      verifyChecksum_iff, ← (verifyChecksum_iff _ _).mp d.checksum]
    refine polymod_set_ne (by rwa [List.length_map]) fun heq => hne ?_
    rw [List.getElem_map] at heq
    rw [← hget]
    exact charsetIndex_injOn hx (d.charset _ (List.getElem_mem hi)) heq

/-- R113: a `1` too near the end. -/
theorem b32DecSplit_set_shortData (hpk : p < k) (hshort : t.length - k - 1 < 6) :
    b32DecSplit (t.set k x) k = .error .shortData :=
  b32DecSplit_shortData (Nat.ne_zero_of_lt hpk) (by simpa [Nat.sub_sub] using hshort)

end

section
variable {inb : List Byte} {p k : Nat} {c : Byte}

theorem Decodes.isAlnum_set (d : Decodes inb p) (hc : isAlnum c = true) : ∀ x ∈ inb.set k c, isAlnum x = true := by
  intro x hx
  obtain hx | rfl := List.mem_or_eq_of_mem_set hx
  · exact d.alnum x hx
  · exact hc

/-- R113: what B32_DEC answers to a valid string with one data character replaced. -/
theorem Decodes.b32DecFn_set (d : Decodes inb p) (hpk : p < k) (hk : k < inb.length)
    (hne : toLower c ≠ toLower inb[k]) :
    (isAlnum c = false → b32DecFn (inb.set k c) = .error .badChar) ∧
    (isAlnum c = true → Stated.Mixed (inb.set k c) → b32DecFn (inb.set k c) = .error .mixedCase) ∧
    (isAlnum c = true → ¬ Stated.Mixed (inb.set k c) →
      (inCharset (toLower c) = true → b32DecFn (inb.set k c) = .error .badChecksum) ∧
      (inCharset (toLower c) = false → c ≠ 0x31#8 → b32DecFn (inb.set k c) = .error .badDataChar) ∧
      (c = 0x31#8 → inb.length - k - 1 < 6 → b32DecFn (inb.set k c) = .error .shortData)) := by
  have hkt : k < (inb.map toLower).length := by rwa [List.length_map]
  have hget : (inb.map toLower)[k] = toLower inb[k] := List.getElem_map ..
  refine ⟨fun hc => b32DecFn_badChar ⟨c, List.mem_set hk c, hc⟩,
    fun hc hmix => b32DecFn_mixedCase (d.isAlnum_set hc) hmix, fun hc hcase => ⟨fun hin => ?_, fun hin hsep => ?_, ?_⟩⟩
  · have hsep : toLower c ≠ 0x31#8 := by
      intro heq
      rw [heq] at hin
      exact absurd hin (by decide)
    have hlast := lastOne_set_of_ne d.lastOne hpk hsep
    rw [← List.map_set] at hlast
    rw [b32DecFn_of_lastOne (d.isAlnum_set hc) hcase hlast, List.map_set]
    exact d.split.set_badChecksum hpk hkt hin (hget ▸ hne)
  · have hlast := lastOne_set_of_ne d.lastOne hpk (mt (toLower_eq_separator_iff c).mp hsep)
    rw [← List.map_set] at hlast
    rw [b32DecFn_of_lastOne (d.isAlnum_set hc) hcase hlast, List.map_set]
    exact d.split.set_badDataChar hpk hkt hin
  · rintro rfl hshort
    have hlast : Stated.LastOne ((inb.set k 0x31#8).map toLower) k := by
      rw [List.map_set]
      exact lastOne_set_separator d.lastOne hpk hkt
    rw [b32DecFn_of_lastOne (d.isAlnum_set hc) hcase hlast, List.map_set]
    exact b32DecSplit_set_shortData hpk (by rwa [List.length_map])

end

/-! ### The case of a string (R104, R114) -/

theorem all_isAlnum_map_toLower (bs : List Byte) : (bs.map toLower).all isAlnum = bs.all isAlnum := by
  simp [List.all_map, Function.comp_def]

/-- R114: B32_DEC sees a string of one case only by its lowercase form. -/
theorem b32DecFn_congr {xs ys : List Byte} (hx : ¬ Stated.Mixed xs) (hy : ¬ Stated.Mixed ys)
    (h : xs.map toLower = ys.map toLower) : b32DecFn xs = b32DecFn ys := by
  have hall : xs.all isAlnum = ys.all isAlnum := by
    rw [← all_isAlnum_map_toLower xs, h, all_isAlnum_map_toLower]
  rw [mixed_iff] at hx hy
  simp only [b32DecFn, hall, if_neg hx, if_neg hy, h]

/-- R114: B32_DEC reads a string of one case whose lowercase form B32_ENC writes. -/
theorem FitsBech32.succeeds_b32Dec {hrp : List Byte} {words : List Word5} (e : FitsBech32 hrp words) {s : State}
    (hcase : ¬ Stated.Mixed (input s)) (hstr : (input s).map toLower = encodedString hrp words) :
    Stated.Succeeds .b32Dec s (hrp ++ Stated.bytesOf words) (BitVec.ofNat 32 hrp.length) := by
  have hf : b32DecFn (input s) = .ok (hrp ++ Stated.bytesOf words) (BitVec.ofNat 32 hrp.length) :=
    (b32DecFn_congr hcase e.decodes.oneCase (hstr.trans e.map_toLower_encodedString.symm)).trans e.b32DecFn_eq
  exact succeeds_of_commandFn .b32Dec (inlen_le_of_input rfl (e.length_le hstr) (by decide)) hf
    (Nat.le_trans e.length_output_le (by decide))

/-- R104: a character in its other case leaves the lowercase form. -/
theorem map_toLower_set {inb : List Byte} {k : Nat} {c : Byte} (hk : k < inb.length)
    (hc : toLower c = toLower inb[k]) : (inb.set k c).map toLower = inb.map toLower := by
  rw [List.map_set, hc, ← List.map_set, List.set_getElem_self]

theorem length_decodedOutput_le (t : List Byte) (p : Nat) : (decodedOutput t p).length ≤ t.length := by
  simp only [decodedOutput, List.length_append, length_bytesOf, List.length_take, List.length_map, List.length_drop]
  omega

/-! ### The HRP expansion as bytes (R107, R127) -/

/-- R107: the high 3 bits of a byte are a word. -/
theorem ushiftRight_and_31 (c : Byte) : c >>> 5 &&& 31#8 = c >>> 5 := by
  revert c; decide

theorem byteOfWord_setWidth (c : Byte) : byteOfWord (c.setWidth 5) = c &&& 31#8 := by
  revert c; decide

theorem map_byteOfWord_hrpExpand (bs : List Byte) : (hrpExpand bs).map byteOfWord =
    bs.map (fun c : Byte => c >>> 5) ++ [0x00#8] ++ bs.map (fun c : Byte => c &&& 31#8) := by
  simp only [hrpExpand, List.map_append, List.map_map, List.map_singleton, Function.comp_def,
    byteOfWord_setWidth, ushiftRight_and_31]
  rfl

theorem length_hrpExpand (bs : List Byte) : (hrpExpand bs).length = 2 * bs.length + 1 := by
  simp only [hrpExpand, List.length_append, List.length_map, List.length_singleton]
  omega

theorem b32PolymodFn_badWord {inb : List Byte} (h : ¬ Stated.AllWords inb) : b32PolymodFn inb = .error .badWord := by
  rw [b32PolymodFn, asWords_of_not_allWords h]

theorem b32PolymodFn_of_allWords {inb : List Byte} (h : Stated.AllWords inb) :
    b32PolymodFn inb = .ok [] ((polymod (Stated.wordsIn inb)).setWidth 32) := by
  rw [b32PolymodFn, asWords_of_allWords h]

end Sys2Proof.Machine

namespace Sys2Proof.Proofs

open Sys2Proof.Machine

/-- Settles O38: the polymod is linear, and the checksum fills what it is to become 1. -/
theorem createdChecksumVerifies : Obligations.CreatedChecksumVerifies :=
  ⟨verifyChecksum_iff, fun hrp words =>
    (verifyChecksum_append_iff hrp words (length_createChecksum hrp words)).mpr rfl⟩

/-- R129, the first direction. -/
theorem b32Dec_of_b32Enc {s t u : State} {h : BitVec 8} (hexec : exec (.b32Enc h) s = .next t)
    (herr : t.err = false) (hin : input u = Stated.outputs t) :
    Stated.Succeeds .b32Dec u (((input s).take h.toNat).map toLower ++ (input s).drop h.toNat)
      (BitVec.ofNat 32 h.toNat) := by
  obtain ⟨out, r, hf, hout, rfl⟩ := exists_ok_of_err_eq_false hexec herr
  obtain ⟨hrp, words, e, hlen, hops, rfl⟩ := exists_fitsBech32_of_b32EncFn_ok hf
  rw [outputs_finishOk hout] at hin
  rw [hops, ← hlen]
  exact e.succeeds_b32Dec (hin ▸ e.decodes.oneCase) (by rw [hin, e.map_toLower_encodedString])

/-- R129, the other direction. -/
theorem b32Enc_of_b32Dec {s t u : State} {h : BitVec 8} (hexec : exec .b32Dec s = .next t) (herr : t.err = false)
    (hin : input u = Stated.outputs t) (hh : h.toNat = t.result.toNat) :
    Stated.Succeeds (.b32Enc h) u ((input s).map toLower) 0#32 := by
  obtain ⟨hrp, words, e, -, hstr, rfl⟩ := exists_fitsBech32_of_exec_b32Dec hexec herr
  rw [outputs_finishOk (Nat.le_trans e.length_output_le (by decide))] at hin
  rw [finishOk_result, e.toNat_length_hrp] at hh
  have henc : b32EncFn h.toNat (input u) = _ := hh ▸ hin ▸ e.b32EncFn_eq
  rw [hstr]
  exact succeeds_of_commandFn (.b32Enc h) (inlen_le_of_input hin e.length_output_le (by decide)) henc
    (Nat.le_trans (e.length_le e.map_toLower_encodedString) (by decide))

/-- Settles O45: both commands go between an HRP with words that fit and the string of R100 with their checksum. -/
theorem encodeAndDecodeRoundTrip : Obligations.EncodeAndDecodeRoundTrip :=
  ⟨fun _ _ _ _ => b32Dec_of_b32Enc, fun _ _ _ _ => b32Enc_of_b32Dec⟩

/-- Settles O46: the new character breaks a check before the checksum, or changes one word and so the polymod. -/
theorem singleSubstitutionIsDetected : Obligations.SingleSubstitutionIsDetected := by
  intro s u s' u' k c hs herr hpk hk hin hne hu
  obtain ⟨hrp, words, e, d, hstr, rfl⟩ := exists_fitsBech32_of_exec_b32Dec hs herr
  rw [finishOk_result, e.toNat_length_hrp] at hpk
  rw [← length_input] at hk
  rw [← getElem_input s hk] at hne
  have hin128 : u.inlen.toNat ≤ 128 :=
    inlen_le_of_input hin (by rw [List.length_set]; exact e.length_le hstr) (by decide : 90 ≤ 128)
  have hcode {code : ErrCode} (hf : b32DecFn ((input s).set k c) = .error code) : u'.errcode = code.code :=
    errcode_of_commandFn .b32Dec hin128 (by rw [hin]; exact hf) hu
  obtain ⟨hbad, hmixed, hcase⟩ := d.b32DecFn_set hpk hk hne
  rw [hin, ← length_input]
  refine ⟨fun hc => hcode (hbad hc), fun hc hmix => hcode (hmixed hc hmix), fun hc hone => ?_⟩
  obtain ⟨hsum, hdata, hshort⟩ := hcase hc hone
  exact ⟨fun h => hcode (hsum h), fun h hsep => hcode (hdata h hsep), fun h hlen => hcode (hshort h hlen)⟩

/-- Settles O36: the step, with the generators' sum written out. -/
theorem polymodStepAndValues : Obligations.PolymodStepAndValues := by
  refine ⟨by decide, by decide, by decide, by decide, by decide, fun vs v => ?_⟩
  have hstep : polymod (vs ++ [v]) = polymodStep (polymod vs) v := by simp [polymod]
  rw [hstep, polymodStep_eq, foldGenerator_eq, BitVec.xor_append, BitVec.xor_zero, BitVec.zero_xor]
  simp

/-- Settles O37: the six words of the register, side by side, are the register. -/
theorem checksumIsThePolymodOverZeros : Obligations.ChecksumIsThePolymodOverZeros :=
  ⟨by decide, by decide, by decide, fun _ _ => ⟨_, _, _, _, _, _, rfl, append_checksumWords _⟩⟩

/-- Settles O39: one answer of the command function for each check. -/
theorem b32EncFollowsItsRule : Obligations.B32EncFollowsItsRule := by
  refine fun h => ⟨rfl, fun s hin => ⟨fun hlt => ?_, fun hle => ?_⟩⟩
  · exact fails_of_commandFn (.b32Enc h) hin (b32EncFn_length (by rwa [length_input]))
  rw [← length_input] at hle
  refine ⟨fun hzero => ?_, fun hpos => ⟨fun hc => ?_, fun halnum => ⟨fun hw => ?_, fun hw =>
    ⟨fun hlong => ?_, fun hfits => ?_⟩⟩⟩⟩
  · have hempty : b32EncFn h.toNat (input s) = .error .emptyHrp := by rw [hzero, b32EncFn_emptyHrp]
    exact fails_of_commandFn (.b32Enc h) hin hempty
  · exact fails_of_commandFn (.b32Enc h) hin (b32EncFn_badChar hle hpos hc)
  · exact fails_of_commandFn (.b32Enc h) hin (b32EncFn_badWord hle hpos halnum hw)
  · exact fails_of_commandFn (.b32Enc h) hin (b32EncFn_tooLong hle hpos halnum hw hlong)
  · have hout : (encodedString (((input s).take h.toNat).map toLower)
        (Stated.wordsIn ((input s).drop h.toNat))).length ≤ Config.outSize := by
      rw [length_encodedString, List.length_map, List.length_take_of_le hle, length_wordsIn]
      exact Nat.le_trans hfits (by decide)
    exact succeeds_of_commandFn (.b32Enc h) hin (b32EncFn_of_encodes ⟨hle, hpos, halnum, hw, hfits⟩) hout

/-- Settles O40: one answer of the command function for each condition of R120, in its order. -/
theorem b32DecFollowsItsRule : Obligations.B32DecFollowsItsRule := by
  refine ⟨rfl, fun s hin => ⟨fun hc => ?_, fun halnum => ⟨fun hmix => ?_, fun hcase =>
    ⟨fun hsep => ?_, fun p hlast => ?_⟩⟩⟩⟩
  · exact fails_of_commandFn .b32Dec hin (b32DecFn_badChar hc)
  · exact fails_of_commandFn .b32Dec hin (b32DecFn_mixedCase halnum hmix)
  · exact fails_of_commandFn .b32Dec hin (b32DecFn_noSep halnum hcase hsep)
  have hf : commandFn .b32Dec (input s) = _ := b32DecFn_of_lastOne halnum hcase hlast
  have hlen : ((input s).map toLower).length = s.inlen.toNat := by rw [List.length_map, length_input]
  refine ⟨?_, fun hpos => ⟨fun hshort => ?_, fun hsix => ⟨fun hlong => ?_, fun hfits => ?_⟩⟩⟩
  · rintro rfl
    exact fails_of_commandFn .b32Dec hin (hf.trans (b32DecSplit_emptyHrp _))
  · exact fails_of_commandFn .b32Dec hin (hf.trans (b32DecSplit_shortData hpos hshort))
  · exact fails_of_commandFn .b32Dec hin (hf.trans (b32DecSplit_tooLong hpos hsix (hlen ▸ hlong)))
  rw [← hlen] at hfits
  refine ⟨fun hc => ?_, fun hc => ⟨fun hsum => ?_, fun hsum => ?_⟩⟩
  · exact fails_of_commandFn .b32Dec hin (hf.trans (b32DecSplit_badDataChar hpos hsix hfits hc))
  · have hv := Bool.eq_false_iff.mpr (mt (verifyChecksum_iff _ _).mp hsum)
    exact fails_of_commandFn .b32Dec hin (hf.trans (b32DecSplit_badChecksum hpos hsix hfits hc hv))
  · have d : Decodes (input s) p :=
      ⟨halnum, hcase, hlast, hpos, hsix, hfits, hc, (verifyChecksum_iff _ _).mpr hsum⟩
    have hout := Nat.le_trans (length_decodedOutput_le ((input s).map toLower) p) hfits
    exact succeeds_of_commandFn .b32Dec hin (b32DecFn_of_decodes d) (Nat.le_trans hout (by decide))

/-- Settles O41: the words decide, and RESULT has room for the register. -/
theorem b32PolymodFollowsItsRule : Obligations.B32PolymodFollowsItsRule := by
  refine ⟨rfl, fun s hin => ⟨fun hw => fails_of_commandFn .b32Polymod hin (b32PolymodFn_badWord hw), fun hw => ?_⟩⟩
  rw [zero_append_eq_setWidth]
  exact succeeds_of_commandFn .b32Polymod hin (b32PolymodFn_of_allWords hw) (by decide)

/-- Settles O42: the expansion has 2 · INLEN + 1 bytes, one more than OUT holds where INLEN is 128. -/
theorem b32HrpexpFollowsItsRule : Obligations.B32HrpexpFollowsItsRule := by
  have hlen (s : State) : ((hrpExpand (input s)).map byteOfWord).length = 2 * s.inlen.toNat + 1 := by
    rw [List.length_map, length_hrpExpand, length_input]
  refine ⟨rfl, fun s => ⟨fun hlt => ?_, fun hmax => ?_⟩⟩
  · rw [← map_byteOfWord_hrpExpand]
    exact succeeds_of_commandFn .b32Hrpexp (Nat.le_of_lt hlt) rfl (by rw [hlen, Config.outSize]; omega)
  · exact fails_of_overlong_output .b32Hrpexp (Nat.le_of_eq hmax) rfl (by rw [hlen, hmax]; decide)

/-- Settles O43: what decodes is an HRP with words that fit, and OUT shows the one after the other. -/
theorem decodedOutputShape : Obligations.DecodedOutputShape := by
  intro s t hexec herr
  obtain ⟨hrp, words, e, d, hstr, rfl⟩ := exists_fitsBech32_of_exec_b32Dec hexec herr
  have hfits := e.fits
  have hpos := List.length_pos_iff.mpr e.nonempty
  have hin := congrArg List.length hstr
  rw [List.length_map, length_input, length_encodedString] at hin
  have hout := Nat.le_trans e.length_output_le (by decide : 83 ≤ Config.outSize)
  have hread := outByte_finishOk hout (BitVec.ofNat 32 hrp.length) s
  rw [toNat_outlen_finishOk hout, finishOk_result, e.toNat_length_hrp, List.length_append, length_bytesOf]
  refine ⟨by omega, by omega, by omega, hpos, by omega, fun k hk => ?_, fun k hge hlt => ?_⟩
  · rw [hread, List.getD_append _ _ _ _ hk, List.getD_eq_getElem _ _ hk]
    exact ⟨e.alnum _ (List.getElem_mem hk), e.notUpper _ (List.getElem_mem hk)⟩
  · have hk : k - hrp.length < (Stated.bytesOf words).length := by rw [length_bytesOf]; omega
    rw [hread, List.getD_append_right _ _ _ _ hge, List.getD_eq_getElem _ _ hk]
    exact allWords_bytesOf words _ (List.getElem_mem hk)

/-- Settles O44: a string and its lowercase form have the same lowercase form. -/
theorem caseOfTheWholeStringDoesNotMatter : Obligations.CaseOfTheWholeStringDoesNotMatter := by
  intro s u s' u' hcase hin hs hu
  have hlower : ¬ Stated.Mixed (input u) := by
    rw [hin]
    exact not_mixed_of_not_isUpper (by simp)
  have hlen : s.inlen = u.inlen := inlen_eq_of_length_input (by rw [hin, List.length_map])
  have hmap : (input s).map toLower = (input u).map toLower := by
    rw [hin]
    exact (map_toLower_of_not_isUpper (by simp)).symm
  exact sameOutcome_of_commandFn .b32Dec hlen (b32DecFn_congr hcase hlower hmap) hs hu

/-- R104: the two strings of log 13. -/
theorem onlyLetterInEitherCase_decodes {s : State}
    (h : input s = [0x30#8, 0x31#8, 0x38#8, 0x32#8, 0x32#8, 0x35#8, 0x37#8, 0x30#8, 0x65#8, 0x30#8] ∨
      input s = [0x30#8, 0x31#8, 0x38#8, 0x32#8, 0x32#8, 0x35#8, 0x37#8, 0x30#8, 0x45#8, 0x30#8]) :
    Stated.Succeeds .b32Dec s [0x30#8, 0x07#8, 0x0A#8] 1#32 := by
  have e : FitsBech32 [0x30#8] [7#5, 10#5] := ⟨⟨by decide, by decide, by decide⟩, by decide⟩
  have hstr : encodedString [0x30#8] [7#5, 10#5] =
      [0x30#8, 0x31#8, 0x38#8, 0x32#8, 0x32#8, 0x35#8, 0x37#8, 0x30#8, 0x65#8, 0x30#8] := by decide +kernel
  obtain h | h := h
  · exact e.succeeds_b32Dec (by rw [h, mixed_iff]; decide) (by rw [h, hstr]; decide)
  · exact e.succeeds_b32Dec (by rw [h, mixed_iff]; decide) (by rw [h, hstr]; decide)

/-- Settles O47: a character in its other case leaves the lowercase form, so only the mixing of cases can show it. -/
theorem caseOfTheOnlyLetterIsNotDetected : Obligations.CaseOfTheOnlyLetterIsNotDetected := by
  refine ⟨fun s => onlyLetterInEitherCase_decodes, fun s u s' u' k c hs herr hk hin hc hu => ?_⟩
  obtain ⟨hrp, words, e, d, hstr, -⟩ := exists_fitsBech32_of_exec_b32Dec hs herr
  rw [← length_input] at hk
  rw [← getElem_input s hk] at hc
  have hlen : (input s).length = (input u).length := by rw [hin, List.length_set]
  have hin128 : u.inlen.toNat ≤ 128 := by
    rw [← length_input, ← hlen]
    exact Nat.le_trans (e.length_le hstr) (by decide)
  refine ⟨fun hmix => ?_, fun hcase => ?_⟩
  · have halnum : ∀ x ∈ input u, isAlnum x = true := by
      rw [hin]
      refine d.isAlnum_set ?_
      rw [← isAlnum_toLower, hc, isAlnum_toLower]
      exact d.alnum _ (List.getElem_mem hk)
    exact errcode_of_commandFn .b32Dec hin128 (b32DecFn_mixedCase halnum hmix) hu
  · have hmap : (input s).map toLower = (input u).map toLower := by rw [hin, map_toLower_set hk hc]
    exact sameOutcome_of_commandFn .b32Dec (inlen_eq_of_length_input hlen) (b32DecFn_congr d.oneCase hcase hmap) hs hu

/-- Settles O34 by going through the 32 values and the 256 bytes. -/
theorem charsetAndItsIndex : Obligations.CharsetAndItsIndex :=
  ⟨by decide, fun v => ⟨inCharset_charsetChar v, charsetIndex_charsetChar v⟩, fun _ => charsetChar_charsetIndex,
    fun _ => inCharset_eq_false_iff, fun _ => isDigit_or_isLower_of_inCharset⟩

end Sys2Proof.Proofs

/-! ## Proofs of the family 41_regroup.md: both directions keep the bitstream of R54 (R150, R153), the strict check
looks at what trails it (R154), and the round trips follow (R157, R158) -/

namespace Sys2Proof.Machine

/-! ### The low bits of a number as a bitstream (R54) -/

/-- R54: the low `n` bits of a number, most significant first. -/
def msbBits (n x : Nat) : List Bool := (List.range n).map (fun i => x.testBit (n - 1 - i))

@[simp] theorem length_msbBits (n x : Nat) : (msbBits n x).length = n := by simp [msbBits]

theorem bitStream_eq_flatMap (w : Nat) (xs : List (BitVec w)) :
    Stated.bitStream w xs = (xs.map BitVec.toNat).flatMap (msbBits w) := by
  rw [List.flatMap_map]
  rfl

/-- Numbers with the same low `n` bits have the same stream. -/
theorem msbBits_congr {n x y : Nat} (h : ∀ i < n, x.testBit i = y.testBit i) : msbBits n x = msbBits n y :=
  List.map_congr_left fun i hi => h _ (by have := List.mem_range.mp hi; omega)

theorem testBit_of_msbBits_eq {n x y i : Nat} (h : msbBits n x = msbBits n y) (hi : i < n) :
    x.testBit i = y.testBit i := by
  have hat := List.map_inj_left.mp h (n - 1 - i) (List.mem_range.mpr (by omega))
  rwa [Nat.sub_sub_self (by omega)] at hat

/-- The high bits of a stream stand before its low ones. -/
theorem msbBits_add (n m x : Nat) : msbBits (n + m) x = msbBits n (x >>> m) ++ msbBits m x := by
  simp only [msbBits, List.range_add, List.map_append, List.map_map, Nat.testBit_shiftRight]
  congr 1
  · refine List.map_congr_left fun i hi => ?_
    have hlt := List.mem_range.mp hi
    congr 1
    omega
  · refine List.map_congr_left fun i hi => ?_
    simp only [Function.comp_apply]
    congr 1
    omega

/-- `acc <- (acc << m) | v` appends the `m` bits of `v` to the stream. -/
theorem msbBits_shiftLeft_or (n : Nat) {m v : Nat} (acc : Nat) (hv : v < 2 ^ m) :
    msbBits (n + m) (acc <<< m ||| v) = msbBits n acc ++ msbBits m v := by
  rw [msbBits_add, Nat.shiftRight_or_distrib, Nat.shiftLeft_shiftRight, Nat.shiftRight_eq_zero v m hv, Nat.or_zero]
  congr 1
  exact msbBits_congr fun i hi => by simp [Nat.not_le.mpr hi]

theorem msbBits_zero (n : Nat) : msbBits n 0 = List.replicate n false := by simp [msbBits, List.map_const']

theorem msbBits_and_mask (n x : Nat) : msbBits n (x &&& (2 ^ n - 1)) = msbBits n x :=
  msbBits_congr fun i hi => by simp [hi]

theorem msbBits_toNat_ofNat (w x : Nat) : msbBits w (BitVec.ofNat w x).toNat = msbBits w x :=
  msbBits_congr fun i hi => by simp [Nat.testBit_mod_two_pow, hi]

theorem true_mem_msbBits_iff {n x : Nat} (h : x < 2 ^ n) : true ∈ msbBits n x ↔ x ≠ 0 := by
  refine ⟨?_, fun hx => ?_⟩
  · rintro hmem rfl
    simp [msbBits_zero] at hmem
  · obtain ⟨i, hi⟩ := Nat.exists_testBit_of_ne_zero hx
    have hin : i < n := (Nat.pow_lt_pow_iff_right (by decide)).mp (Nat.lt_of_le_of_lt (Nat.ge_two_pow_of_testBit hi) h)
    exact List.mem_map.mpr ⟨n - 1 - i, List.mem_range.mpr (by omega), by rwa [Nat.sub_sub_self (by omega)]⟩

/-! ### The bitstream of a sequence determines the sequence -/

theorem length_bitStream {w : Nat} (xs : List (BitVec w)) : (Stated.bitStream w xs).length = w * xs.length := by
  simp [Stated.bitStream, List.length_flatMap, Nat.mul_comm]

/-- The number of bits, where words and bytes have the same stream up to what trails the bytes. -/
theorem length_eq_of_bitStream_eq_append {ws : List Word5} {bs : List Byte} {tail : List Bool}
    (h : Stated.bitStream 5 ws = Stated.bitStream 8 bs ++ tail) : 5 * ws.length = 8 * bs.length + tail.length := by
  rw [← length_bitStream, h, List.length_append, length_bitStream]

theorem bitStream_append {w : Nat} (xs ys : List (BitVec w)) :
    Stated.bitStream w (xs ++ ys) = Stated.bitStream w xs ++ Stated.bitStream w ys := List.flatMap_append

theorem bitStream_map_ofNat (w : Nat) (gs : List Nat) :
    Stated.bitStream w (gs.map (BitVec.ofNat w)) = gs.flatMap (msbBits w) := by
  rw [bitStream_eq_flatMap, List.map_map, List.flatMap_map]
  exact List.flatMap_congr fun g _ => msbBits_toNat_ofNat w g

theorem length_eq_of_bitStream_eq {w : Nat} (hw : 0 < w) {xs ys : List (BitVec w)}
    (h : Stated.bitStream w xs = Stated.bitStream w ys) : xs.length = ys.length :=
  Nat.eq_of_mul_eq_mul_left hw (by rw [← length_bitStream, h, length_bitStream])

theorem bitStream_injective {w : Nat} (hw : 0 < w) : Function.Injective (Stated.bitStream w) := by
  intro xs ys h
  have hlen := length_eq_of_bitStream_eq hw h
  induction xs generalizing ys with
  | nil => exact (List.length_eq_zero_iff.mp hlen.symm).symm
  | cons x xs ih =>
    obtain ⟨y, ys, rfl⟩ := List.exists_cons_of_length_eq_add_one hlen.symm
    obtain ⟨hhead, htail⟩ : msbBits w x.toNat = msbBits w y.toNat ∧ Stated.bitStream w xs = Stated.bitStream w ys :=
      List.append_inj h (by simp)
    have hxy : x = y := BitVec.eq_of_getLsbD_eq fun i hi => testBit_of_msbBits_eq hhead hi
    rw [hxy, ih htail (length_eq_of_bitStream_eq hw htail)]

/-! ### The accumulator (R150, R153) -/

section
variable {outW : Nat} (hpos : 0 < outW)
include hpos

/-- The inner loop ends with fewer bits than a group. -/
theorem emitGroups_left_lt (acc : Nat) {fuel nbits : Nat} (hfuel : nbits ≤ fuel) :
    (emitGroups outW fuel acc nbits).2 < outW := by
  induction fuel generalizing nbits with
  | zero => simpa [emitGroups, Nat.le_zero.mp hfuel] using hpos
  | succ fuel ih =>
    unfold emitGroups
    split
    · exact ih (by omega)
    · next hlt => exact Nat.not_le.mp hlt

omit hpos in
/-- The inner loop cuts the accumulator's bits into the groups and what is left. -/
theorem emitGroups_bits (fuel acc nbits : Nat) :
    (emitGroups outW fuel acc nbits).1.flatMap (msbBits outW) ++ msbBits (emitGroups outW fuel acc nbits).2 acc =
      msbBits nbits acc := by
  induction fuel generalizing nbits with
  | zero => rfl
  | succ fuel ih =>
    unfold emitGroups
    split
    · next hle =>
      rw [List.flatMap_cons, List.append_assoc, ih, msbBits_and_mask, ← msbBits_add, Nat.add_sub_cancel' hle]
    · rfl

/-- The outer loop ends with fewer bits than a group. -/
theorem regroup_nbits_lt (inW : Nat) (vs : List Nat) (acc : Nat) {nbits : Nat} (h : nbits < outW) :
    (regroup inW outW vs acc nbits).2.2 < outW := by
  induction vs generalizing acc nbits with
  | nil => exact h
  | cons v vs ih => exact ih _ (emitGroups_left_lt hpos _ (Nat.le_refl _))

end

/-- The accumulator holds the unconsumed bits and no other. -/
theorem regroup_acc_lt (inW outW : Nat) (vs : List Nat) {acc nbits : Nat} (h : acc < 2 ^ nbits) :
    (regroup inW outW vs acc nbits).2.1 < 2 ^ (regroup inW outW vs acc nbits).2.2 := by
  induction vs generalizing acc nbits with
  | nil => exact h
  | cons v vs ih =>
    refine ih ?_
    rw [Nat.one_shiftLeft]
    exact Nat.and_lt_two_pow _ (Nat.sub_lt (Nat.two_pow_pos _) Nat.one_pos)

/-- The outer loop keeps the bitstream: the groups, then the unconsumed bits, are the accumulator's bits, then the
elements'. -/
theorem regroup_bits {inW : Nat} (outW : Nat) {vs : List Nat} (hvs : ∀ v ∈ vs, v < 2 ^ inW) (acc nbits : Nat) :
    (regroup inW outW vs acc nbits).1.flatMap (msbBits outW) ++
        msbBits (regroup inW outW vs acc nbits).2.2 (regroup inW outW vs acc nbits).2.1 =
      msbBits nbits acc ++ vs.flatMap (msbBits inW) := by
  induction vs generalizing acc nbits with
  | nil => simp [regroup]
  | cons v vs ih =>
    obtain ⟨hv, hvs⟩ := List.forall_mem_cons.mp hvs
    unfold regroup
    rw [List.flatMap_append, List.append_assoc, ih hvs, Nat.one_shiftLeft, msbBits_and_mask, ← List.append_assoc,
      emitGroups_bits, msbBits_shiftLeft_or nbits acc hv, List.flatMap_cons, List.append_assoc]

/-- The bitstream of a sequence of bit vectors, as regrouped from an empty accumulator. -/
theorem regroup_toNat_bits {inW : Nat} (outW : Nat) (xs : List (BitVec inW)) :
    (regroup inW outW (xs.map BitVec.toNat) 0 0).1.flatMap (msbBits outW) ++
        msbBits (regroup inW outW (xs.map BitVec.toNat) 0 0).2.2 (regroup inW outW (xs.map BitVec.toNat) 0 0).2.1 =
      Stated.bitStream inW xs := by
  have hlt : ∀ v ∈ xs.map BitVec.toNat, v < 2 ^ inW := List.forall_mem_map.mpr fun x _ => x.isLt
  rw [regroup_bits outW hlt, ← bitStream_eq_flatMap]
  rfl

/-! ### TO_WORDS (R150) -/

/-- R150: the words' bits are the bytes' bits, then at most four zeros. -/
theorem exists_bitStream_toWordsOf (bs : List Byte) :
    ∃ pad ≤ 4, Stated.bitStream 5 (toWordsOf bs) = Stated.bitStream 8 bs ++ List.replicate pad false := by
  have hlt := regroup_nbits_lt (outW := 5) (by decide) 8 (bs.map BitVec.toNat) 0 (nbits := 0) (by decide)
  have hbits := regroup_toNat_bits 5 bs
  unfold toWordsOf
  generalize regroup 8 5 (bs.map BitVec.toNat) 0 0 = r at hlt hbits
  obtain ⟨groups, acc, nbits⟩ := r
  dsimp only at hlt hbits ⊢
  rw [bitStream_append, bitStream_map_ofNat, ← hbits]
  obtain rfl | hpos := Nat.eq_zero_or_pos nbits
  · exact ⟨0, by decide, by simp [Stated.bitStream, msbBits]⟩
  · have hlast : msbBits 5 (acc <<< (5 - nbits)) = msbBits nbits acc ++ List.replicate (5 - nbits) false := by
      have happ := msbBits_shiftLeft_or nbits acc (Nat.two_pow_pos (5 - nbits))
      rwa [Nat.or_zero, msbBits_zero, Nat.add_sub_cancel' (Nat.le_of_lt hlt)] at happ
    have hword := bitStream_map_ofNat 5 [acc <<< (5 - nbits)]
    rw [List.map_singleton, List.flatMap_singleton, hlast] at hword
    exact ⟨5 - nbits, by omega, by rw [if_pos hpos, hword, List.append_assoc]⟩

theorem length_toWordsOf (bs : List Byte) : (toWordsOf bs).length = (8 * bs.length + 4) / 5 := by
  obtain ⟨pad, hpad, hbits⟩ := exists_bitStream_toWordsOf bs
  have hlen := length_eq_of_bitStream_eq_append hbits
  rw [List.length_replicate] at hlen
  omega

/-- R150: the number of padding bits, from the lengths. -/
theorem bitStream_toWordsOf (bs : List Byte) : Stated.bitStream 5 (toWordsOf bs) =
    Stated.bitStream 8 bs ++ List.replicate (5 * (toWordsOf bs).length - 8 * bs.length) false := by
  obtain ⟨pad, hpad, hbits⟩ := exists_bitStream_toWordsOf bs
  have hlen := length_eq_of_bitStream_eq_append hbits
  rw [List.length_replicate] at hlen
  rw [hbits, hlen, Nat.add_sub_cancel_left]

/-! ### FROM_WORDS (R153, R154) -/

/-- R153: the words' bits, cut into the bytes and what trails them. -/
structure CutsInto (ws : List Word5) (bs : List Byte) (tail : List Bool) : Prop where
  bits  : Stated.bitStream 5 ws = Stated.bitStream 8 bs ++ tail
  short : tail.length < 8

/-- R154: what the strict check asks of the trailing bits. -/
def StrictTail (tail : List Bool) : Prop := tail.length < 5 ∧ true ∉ tail

theorem strictTail_iff (tail : List Bool) : StrictTail tail ↔ ∃ pad ≤ 4, tail = List.replicate pad false := by
  constructor
  · rintro ⟨hlen, hzero⟩
    refine ⟨tail.length, Nat.le_of_lt_succ hlen, List.eq_replicate_iff.mpr ⟨rfl, fun b hb => ?_⟩⟩
    exact Bool.eq_false_iff.mpr fun htrue => hzero (htrue ▸ hb)
  · rintro ⟨pad, hpad, rfl⟩
    exact ⟨by rw [List.length_replicate]; omega, by simp⟩

/-- R153, R154: FROM_WORDS cuts the words' bits, and the strict mode answers exactly where the check passes. -/
theorem exists_cutsInto_fromWordsOf (ws : List Word5) : ∃ bs tail, CutsInto ws bs tail ∧
    fromWordsOf ws false = some bs ∧ (StrictTail tail → fromWordsOf ws true = some bs) ∧
    (¬ StrictTail tail → fromWordsOf ws true = none) := by
  have hlt := regroup_nbits_lt (outW := 8) (by decide) 5 (ws.map BitVec.toNat) 0 (nbits := 0) (by decide)
  have hacc := regroup_acc_lt 5 8 (ws.map BitVec.toNat) (acc := 0) (nbits := 0) (by decide)
  have hbits := regroup_toNat_bits 8 ws
  unfold fromWordsOf
  generalize regroup 5 8 (ws.map BitVec.toNat) 0 0 = r at hlt hacc hbits
  obtain ⟨groups, acc, nbits⟩ := r
  dsimp only at hlt hacc hbits ⊢
  have hstrict : StrictTail (msbBits nbits acc) ↔ nbits < 5 ∧ acc = 0 := by
    rw [StrictTail, length_msbBits, true_mem_msbBits_iff hacc, not_not]
  refine ⟨groups.map (BitVec.ofNat 8), msbBits nbits acc, ⟨?_, ?_⟩, rfl, fun h => ?_, fun h => ?_⟩
  · rw [bitStream_map_ofNat, hbits]
  · rwa [length_msbBits]
  · obtain ⟨hn, ha⟩ := hstrict.mp h
    simp [ha, Nat.not_le.mpr hn]
  · rw [hstrict] at h
    simp only [Bool.true_and, decide_eq_true_eq, bne_iff_ne]
    split
    · rfl
    · exact if_pos fun ha => h ⟨by omega, ha⟩

section
variable {ws : List Word5} {bs : List Byte} {tail : List Bool} (c : CutsInto ws bs tail)
include c

theorem CutsInto.length_bytes : bs.length = 5 * ws.length / 8 := by
  have hlen := length_eq_of_bitStream_eq_append c.bits
  have hshort := c.short
  omega

theorem CutsInto.length_tail : tail.length = 5 * ws.length % 8 := by
  have hlen := length_eq_of_bitStream_eq_append c.bits
  have hshort := c.short
  omega

theorem CutsInto.take_eq : (Stated.bitStream 5 ws).take (8 * (5 * ws.length / 8)) = Stated.bitStream 8 bs := by
  rw [← c.length_bytes, c.bits, ← length_bitStream, List.take_left]

theorem CutsInto.drop_eq : (Stated.bitStream 5 ws).drop (8 * (5 * ws.length / 8)) = tail := by
  rw [← c.length_bytes, c.bits, ← length_bitStream, List.drop_left]

/-- There is one way to cut a stream into bytes and fewer than eight trailing bits. -/
theorem CutsInto.unique {bs' : List Byte} {tail' : List Bool} (c' : CutsInto ws bs' tail') : bs = bs' ∧ tail = tail' :=
  ⟨bitStream_injective (by decide) (c.take_eq.symm.trans c'.take_eq), c.drop_eq.symm.trans c'.drop_eq⟩

theorem CutsInto.fromWordsOf_false : fromWordsOf ws false = some bs := by
  obtain ⟨bs', tail', c', hf, -, -⟩ := exists_cutsInto_fromWordsOf ws
  rw [hf, (c.unique c').1]

theorem CutsInto.fromWordsOf_of_strictTail (h : StrictTail tail) (strict : Bool) : fromWordsOf ws strict = some bs := by
  obtain ⟨bs', tail', c', hf, hok, -⟩ := exists_cutsInto_fromWordsOf ws
  obtain ⟨rfl, rfl⟩ := c.unique c'
  cases strict with
  | false => exact hf
  | true => exact hok h

theorem CutsInto.fromWordsOf_of_not_strictTail (h : ¬ StrictTail tail) : fromWordsOf ws true = none := by
  obtain ⟨bs', tail', c', -, -, hnone⟩ := exists_cutsInto_fromWordsOf ws
  obtain ⟨-, rfl⟩ := c.unique c'
  exact hnone h

theorem CutsInto.isSome_fromWordsOf_true_iff : (fromWordsOf ws true).isSome = true ↔ StrictTail tail := by
  by_cases h : StrictTail tail
  · simp [c.fromWordsOf_of_strictTail h, h]
  · simp [c.fromWordsOf_of_not_strictTail h, h]

/-- R158: the words come back exactly where the trailing bits are a padding. -/
theorem CutsInto.toWordsOf_eq_iff : toWordsOf bs = ws ↔ StrictTail tail := by
  obtain ⟨pad, hpad, hbits⟩ := exists_bitStream_toWordsOf bs
  rw [strictTail_iff]
  constructor
  · rintro rfl
    exact ⟨pad, hpad, List.append_cancel_left (c.bits.symm.trans hbits)⟩
  · rintro ⟨pad', hpad', htail⟩
    have hbits' := htail ▸ c.bits
    have hlen := length_eq_of_bitStream_eq_append hbits
    have hlen' := length_eq_of_bitStream_eq_append hbits'
    rw [List.length_replicate] at hlen hlen'
    have hsame : pad = pad' := by omega
    exact bitStream_injective (by decide) (by rw [hbits, hbits', hsame])

end

/-- R157: TO_WORDS leaves FROM_WORDS the bytes and its padding. -/
theorem exists_cutsInto_toWordsOf (bs : List Byte) : ∃ tail, CutsInto (toWordsOf bs) bs tail ∧ StrictTail tail := by
  obtain ⟨pad, hpad, hbits⟩ := exists_bitStream_toWordsOf bs
  exact ⟨_, ⟨hbits, by rw [List.length_replicate]; omega⟩, (strictTail_iff _).mpr ⟨pad, hpad, rfl⟩⟩

/-! ### The command function of FROM_WORDS (R155) -/

theorem fromWordsFn_badWord {inb : List Byte} (h : ¬ Stated.AllWords inb) (strict : Bool) :
    fromWordsFn strict inb = .error .badWord := by
  rw [fromWordsFn, asWords_of_not_allWords h]

section
variable {inb : List Byte} (h : Stated.AllWords inb) {strict : Bool}
include h

theorem fromWordsFn_badPadding (hf : fromWordsOf (Stated.wordsIn inb) strict = none) :
    fromWordsFn strict inb = .error .badPadding := by
  simp only [fromWordsFn, asWords_of_allWords h, hf]

theorem fromWordsFn_of_fromWordsOf {bs : List Byte} (hf : fromWordsOf (Stated.wordsIn inb) strict = some bs) :
    fromWordsFn strict inb = .ok bs 0x00000000#32 := by
  simp only [fromWordsFn, asWords_of_allWords h, hf]

end

end Sys2Proof.Machine

namespace Sys2Proof.Proofs

open Sys2Proof.Machine

/-- Settles O50: the words' bits are the bytes' bits and a padding that the strict check accepts. -/
theorem regroupRoundTrip : Obligations.RegroupRoundTrip := by
  intro bs strict
  obtain ⟨tail, c, htail⟩ := exists_cutsInto_toWordsOf bs
  exact c.fromWordsOf_of_strictTail htail strict

/-- Settles O51: both sides say that the trailing bits are a padding. -/
theorem reverseRegroupExactlyWhenStrictPasses : Obligations.ReverseRegroupExactlyWhenStrictPasses := by
  intro ws bs hf
  obtain ⟨bs', tail, c, hf', -, -⟩ := exists_cutsInto_fromWordsOf ws
  obtain rfl : bs = bs' := Option.some_inj.mp (hf.symm.trans hf')
  rw [c.isSome_fromWordsOf_true_iff, c.drop_eq, ← c.length_tail]
  exact ⟨c.toWordsOf_eq_iff, and_congr_left' Nat.lt_succ_iff⟩

/-- Settles O48: the words of R150, one a byte. -/
theorem toWordsFollowsItsRule : Obligations.ToWordsFollowsItsRule := by
  refine ⟨rfl, fun s hin => ⟨toWordsOf (input s), ?_, ?_, ?_⟩⟩
  · rw [length_toWordsOf, length_input]
  · rw [bitStream_toWordsOf, length_input]
  · refine succeeds_of_commandFn .toWords hin rfl ?_
    rw [length_bytesOf, length_toWordsOf, length_input, Config.outSize]
    omega

/-- Settles O49: the word check, then the one way to cut the words' bits into bytes and what the strict check sees. -/
theorem fromWordsFollowsItsRule : Obligations.FromWordsFollowsItsRule := by
  refine ⟨rfl, rfl, fun strict s hin => ⟨fun hw => ?_, fun hw => ?_⟩⟩
  · exact fails_of_commandFn (.fromWords strict) hin (fromWordsFn_badWord hw strict)
  obtain ⟨bs, tail, c, -⟩ := exists_cutsInto_fromWordsOf (Stated.wordsIn (input s))
  have hlen : (Stated.wordsIn (input s)).length = s.inlen.toNat := by rw [length_wordsIn, length_input]
  have hbytes := c.length_bytes
  have htake := c.take_eq
  have hdrop := c.drop_eq
  rw [hlen] at hbytes htake hdrop
  rw [hdrop, htake]
  refine ⟨fun hs htail => ?_, fun hs => ⟨bs, hbytes, rfl, ?_⟩⟩
  · have hnot : ¬ StrictTail tail := fun ⟨hshort, hzero⟩ => htail.elim (Nat.not_le.mpr hshort) hzero
    have hnone : fromWordsOf (Stated.wordsIn (input s)) strict = none := hs ▸ c.fromWordsOf_of_not_strictTail hnot
    exact fails_of_commandFn (.fromWords strict) hin (fromWordsFn_badPadding hw hnone)
  · have hsome : fromWordsOf (Stated.wordsIn (input s)) strict = some bs := by
      obtain rfl | htail := hs
      · exact c.fromWordsOf_false
      · exact c.fromWordsOf_of_strictTail htail strict
    refine succeeds_of_commandFn (.fromWords strict) hin (fromWordsFn_of_fromWordsOf hw hsome) ?_
    rw [hbytes, Config.outSize]
    omega

end Sys2Proof.Proofs

/-! ## Proofs of the family 42_base58.md: encoding and decoding are one change of base that keeps the leading zeros
(R175, R176), it is undone by the change back (R177), and a digit count bounds the outputs (R178, R181, R185) -/

namespace Sys2Proof.Machine

/-! ### Numbers as digits, most significant first (R172, R174) -/

theorem ofDigits_eq_ofDigits_reverse (base : Nat) (ds : List Nat) :
    ofDigits base ds = Nat.ofDigits base ds.reverse := by
  simp only [ofDigits, Nat.ofDigits_eq_foldr, List.foldr_reverse, Nat.cast_id, Nat.add_comm, Nat.mul_comm]

theorem ofDigits_cons (base d : Nat) (ds : List Nat) :
    ofDigits base (d :: ds) = d * base ^ ds.length + ofDigits base ds := by
  rw [ofDigits_eq_ofDigits_reverse, Nat.ofDigits_reverse_cons, ← ofDigits_eq_ofDigits_reverse, Nat.add_comm,
    Nat.mul_comm]

/-- R172: the accumulation is the sum of the digits by their weights. -/
theorem bigEndian_eq_ofDigits (base : Nat) (ds : List Nat) : Stated.bigEndian base ds = ofDigits base ds := by
  induction ds with
  | nil => rfl
  | cons d ds ih =>
    rw [ofDigits_cons, ← ih, Stated.bigEndian, List.length_cons, Finset.sum_range_succ', Nat.add_comm]
    simp only [Stated.bigEndian, List.getD_cons_succ, List.getD_cons_zero, Nat.add_sub_cancel, Nat.sub_zero,
      Nat.sub_sub, Nat.add_comm 1]

theorem ofDigits_replicate_zero_append (base z : Nat) (ds : List Nat) :
    ofDigits base (List.replicate z 0 ++ ds) = ofDigits base ds := by
  induction z with
  | zero => rfl
  | succ z ih => rw [List.replicate_succ, List.cons_append, ofDigits_cons, ih, Nat.zero_mul, Nat.zero_add]

theorem ofDigits_lt_pow_length {base : Nat} (hb : 1 < base) {ds : List Nat} (h : ∀ d ∈ ds, d < base) :
    ofDigits base ds < base ^ ds.length := by
  rw [ofDigits_eq_ofDigits_reverse, ← List.length_reverse]
  exact Nat.ofDigits_lt_base_pow_length hb fun d hd => h d (List.mem_reverse.mp hd)

/-- R174, R175: digits below the base and no zero in front are Mathlib's digits, the other way round. -/
theorem digits_ofDigits_of_head_ne_zero {base : Nat} (hb : 1 < base) {ds : List Nat} (hlt : ∀ d ∈ ds, d < base)
    (hhead : ds.head? ≠ some 0) : Nat.digits base (ofDigits base ds) = ds.reverse := by
  rw [ofDigits_eq_ofDigits_reverse]
  refine Nat.digits_ofDigits base hb _ (fun d hd => hlt d (List.mem_reverse.mp hd)) fun hne hzero => hhead ?_
  rw [← List.getLast?_reverse, List.getLast?_eq_some_getLast hne, hzero]

section
variable {base : Nat} (hb : 1 < base) (n : Nat)
include hb

theorem lt_of_mem_digitsOf : ∀ d ∈ digitsOf base n, d < base := (digitsOf_spec hb n).1

theorem head?_digitsOf_ne_zero : (digitsOf base n).head? ≠ some 0 := (digitsOf_spec hb n).2.1

theorem ofDigits_digitsOf : ofDigits base (digitsOf base n) = n := (digitsOf_spec hb n).2.2

theorem digitsOf_eq_reverse_digits : digitsOf base n = (Nat.digits base n).reverse := by
  rw [← List.reverse_eq_iff,
    ← digits_ofDigits_of_head_ne_zero hb (lt_of_mem_digitsOf hb n) (head?_digitsOf_ne_zero hb n),
    ofDigits_digitsOf hb]

theorem length_digitsOf_le_iff (k : Nat) : (digitsOf base n).length ≤ k ↔ n < base ^ k := by
  rw [digitsOf_eq_reverse_digits hb, List.length_reverse, Nat.digits_length_le_iff hb]

end

theorem digitsOf_ofDigits {base : Nat} (hb : 1 < base) {ds : List Nat} (hlt : ∀ d ∈ ds, d < base)
    (hhead : ds.head? ≠ some 0) : digitsOf base (ofDigits base ds) = ds := by
  rw [digitsOf_eq_reverse_digits hb, digits_ofDigits_of_head_ne_zero hb hlt hhead, List.reverse_reverse]

/-! ### The change of base that keeps the leading zeros -/

/-- R173, of digits. -/
def leadZeros (ds : List Nat) : Nat := (ds.takeWhile (· == 0)).length

/-- What R175 and R176 do to the digits: as many leading zeros, then the minimal digits of the value in the new base. -/
def rebase (base base' : Nat) (ds : List Nat) : List Nat :=
  List.replicate (leadZeros ds) 0 ++ digitsOf base' (ofDigits base ds)

theorem exists_replicate_zero_append (ds : List Nat) :
    ∃ z rest, ds = List.replicate z 0 ++ rest ∧ rest.head? ≠ some 0 := by
  induction ds with
  | nil => exact ⟨0, [], rfl, by simp⟩
  | cons d ds ih =>
    cases d with
    | zero =>
      obtain ⟨z, rest, rfl, hhead⟩ := ih
      exact ⟨z + 1, rest, rfl, hhead⟩
    | succ d => exact ⟨0, (d + 1) :: ds, rfl, by simp⟩

theorem leadZeros_replicate_zero_append (z : Nat) {ds : List Nat} (h : ds.head? ≠ some 0) :
    leadZeros (List.replicate z 0 ++ ds) = z := by
  induction z with
  | zero =>
    cases ds with
    | nil => rfl
    | cons d ds =>
      have hd : d ≠ 0 := by simpa using h
      simp [leadZeros, hd]
  | succ z ih => simpa [leadZeros, List.replicate_succ] using ih

theorem rebase_replicate_zero_append (base base' z : Nat) {ds : List Nat} (h : ds.head? ≠ some 0) :
    rebase base base' (List.replicate z 0 ++ ds) = List.replicate z 0 ++ digitsOf base' (ofDigits base ds) := by
  rw [rebase, leadZeros_replicate_zero_append z h, ofDigits_replicate_zero_append]

theorem lt_of_mem_rebase {base base' : Nat} (hb' : 1 < base') {ds : List Nat} :
    ∀ d ∈ rebase base base' ds, d < base' := by
  intro d hd
  obtain hzero | hdigit := List.mem_append.mp hd
  · rw [List.eq_of_mem_replicate hzero]
    omega
  · exact lt_of_mem_digitsOf hb' _ d hdigit

section
variable {base base' : Nat} (hb : 1 < base) (hb' : 1 < base') {ds : List Nat} (hlt : ∀ d ∈ ds, d < base)
include hb hb' hlt

/-- R177: the change back gives the digits back, since minimal digits add no leading zero of their own. -/
theorem rebase_rebase : rebase base' base (rebase base base' ds) = ds := by
  obtain ⟨z, rest, rfl, hhead⟩ := exists_replicate_zero_append ds
  have hrest : ∀ d ∈ rest, d < base := fun d hd => hlt d (List.mem_append_right _ hd)
  rw [rebase_replicate_zero_append _ _ _ hhead,
    rebase_replicate_zero_append _ _ _ (head?_digitsOf_ne_zero hb' (ofDigits base rest)), ofDigits_digitsOf hb',
    digitsOf_ofDigits hb hrest hhead]

/-- R178, R181: where `extra` more digits of the new base are enough at every length, the result has at most that many
more digits: each leading zero stands for itself. -/
theorem length_rebase_le {extra : Nat} (hpow : ∀ k ≤ ds.length, base ^ k ≤ base' ^ (k + extra)) :
    (rebase base base' ds).length ≤ ds.length + extra := by
  obtain ⟨z, rest, rfl, hhead⟩ := exists_replicate_zero_append ds
  have hrest : ∀ d ∈ rest, d < base := fun d hd => hlt d (List.mem_append_right _ hd)
  have hdigits : (digitsOf base' (ofDigits base rest)).length ≤ rest.length + extra :=
    (length_digitsOf_le_iff hb' _ _).mpr
      (Nat.lt_of_lt_of_le (ofDigits_lt_pow_length hb hrest) (hpow _ (by simp)))
  simp only [rebase_replicate_zero_append _ _ _ hhead, List.length_append, List.length_replicate]
  omega

end

/-- A bound for the longest length is one for every shorter length, where the old base is the larger one. -/
theorem pow_le_pow_add_of_le {base base' n extra : Nat} (hle : base' ≤ base) (hpos : 0 < base')
    (hn : base ^ n ≤ base' ^ (n + extra)) {k : Nat} (hk : k ≤ n) : base ^ k ≤ base' ^ (k + extra) := by
  have hscaled : base ^ k * base' ^ (n - k) ≤ base' ^ (k + extra) * base' ^ (n - k) := by
    calc base ^ k * base' ^ (n - k)
      _ ≤ base ^ k * base ^ (n - k) := Nat.mul_le_mul_left _ (Nat.pow_le_pow_left hle _)
      _ = base ^ n := by rw [← Nat.pow_add, Nat.add_sub_cancel' hk]
      _ ≤ base' ^ (n + extra) := hn
      _ = base' ^ (k + extra) * base' ^ (n - k) := by rw [← Nat.pow_add]; congr 1; omega
  exact Nat.le_of_mul_le_mul_right hscaled (Nat.pow_pos hpos)

/-! ### The alphabet (R170, R171) -/

theorem inAlphabet_alphabetChar : ∀ d < 58, inAlphabet (alphabetChar d) = true := by decide

theorem alphabetDigit_alphabetChar : ∀ d < 58, alphabetDigit (alphabetChar d) = d := by decide

theorem alphabetChar_alphabetDigit {c : Byte} : inAlphabet c = true → alphabetChar (alphabetDigit c) = c := by
  revert c; decide

theorem alphabetDigit_lt {c : Byte} (h : inAlphabet c = true) : alphabetDigit c < 58 :=
  List.idxOf_lt_length_of_mem (List.contains_iff_mem.mp h)

theorem alphabetDigit_eq_zero_iff (c : Byte) : alphabetDigit c = 0 ↔ c = 0x31#8 := by
  revert c; decide

theorem inAlphabet_iff (c : Byte) :
    inAlphabet c = true ↔ isAlnum c = true ∧ c ∉ [0x30#8, 0x4F#8, 0x49#8, 0x6C#8] := by
  revert c; decide

theorem alphabet_ascending : alphabet.Pairwise (fun c d => c.toNat < d.toNat) := by decide

theorem alphabetChar_strictMono {d e : Nat} (hde : d < e) (he : e < 58) :
    (alphabetChar d).toNat < (alphabetChar e).toNat := by
  have hlen : alphabet.length = 58 := rfl
  rw [alphabetChar, alphabetChar, List.getD_eq_getElem _ _ (by omega), List.getD_eq_getElem _ _ (by omega)]
  exact List.pairwise_iff_getElem.mp alphabet_ascending d e _ _ hde

theorem map_alphabetDigit_alphabetChar {ds : List Nat} (h : ∀ d ∈ ds, d < 58) :
    (ds.map alphabetChar).map alphabetDigit = ds := by
  rw [List.map_map]
  exact (List.map_congr_left (g := id) fun d hd => alphabetDigit_alphabetChar d (h d hd)).trans (List.map_id ds)

theorem map_alphabetChar_alphabetDigit {cs : List Byte} (h : ∀ c ∈ cs, inAlphabet c = true) :
    (cs.map alphabetDigit).map alphabetChar = cs := by
  rw [List.map_map]
  exact (List.map_congr_left (g := id) fun c hc => alphabetChar_alphabetDigit (h c hc)).trans (List.map_id cs)

/-! ### Bytes as the digits of base 256 (R172) -/

theorem lt_of_mem_map_toNat {bs : List Byte} : ∀ d ∈ bs.map BitVec.toNat, d < 256 := by
  intro d hd
  obtain ⟨b, -, rfl⟩ := List.mem_map.mp hd
  exact b.isLt

theorem map_ofNat_toNat (bs : List Byte) : (bs.map BitVec.toNat).map (BitVec.ofNat 8) = bs := by
  simp [Function.comp_def]

theorem map_toNat_ofNat {ds : List Nat} (h : ∀ d ∈ ds, d < 256) :
    (ds.map (BitVec.ofNat 8)).map BitVec.toNat = ds := by
  rw [List.map_map]
  exact (List.map_congr_left (g := id) fun d hd => Nat.mod_eq_of_lt (h d hd)).trans (List.map_id ds)

/-! ### The encoding and the decoding (R175, R176) -/

theorem leadZeros_map {f : Byte → Nat} {c : Byte} (h : ∀ b, f b = 0 ↔ b = c) (bs : List Byte) :
    leadZeros (bs.map f) = leadCount c bs := by
  have hf : (fun n => n == 0) ∘ f = (· == c) := by
    funext b
    rw [Bool.eq_iff_iff]
    simp [h]
  rw [leadZeros, leadCount, List.takeWhile_map, hf, List.length_map]

/-- R175. -/
theorem b58Encode_eq (bs : List Byte) : b58Encode bs = (rebase 256 58 (bs.map BitVec.toNat)).map alphabetChar := by
  have hlead : leadZeros (bs.map BitVec.toNat) = leadCount 0x00#8 bs :=
    leadZeros_map (fun _ => BitVec.toNat_inj (y := 0x00#8)) bs
  rw [rebase, List.map_append, List.map_replicate, hlead]
  rfl

/-- R175: the digits that the encoding spells. -/
theorem map_alphabetDigit_b58Encode (bs : List Byte) :
    (b58Encode bs).map alphabetDigit = rebase 256 58 (bs.map BitVec.toNat) := by
  rw [b58Encode_eq, map_alphabetDigit_alphabetChar (lt_of_mem_rebase (by decide))]

theorem inAlphabet_of_mem_b58Encode (bs : List Byte) : ∀ c ∈ b58Encode bs, inAlphabet c = true := by
  intro c hc
  rw [b58Encode_eq] at hc
  obtain ⟨d, hd, rfl⟩ := List.mem_map.mp hc
  exact inAlphabet_alphabetChar d (lt_of_mem_rebase (by decide) d hd)

/-- R186: a leading zero byte is a leading `1`. -/
theorem b58Encode_zero_cons (bs : List Byte) : b58Encode (0x00#8 :: bs) = 0x31#8 :: b58Encode bs := by
  simp [b58Encode, leadCount, beValue, ofDigits, List.replicate_succ]

theorem b58Decode_of_foreign {str : List Byte} (h : ∃ c ∈ str, inAlphabet c = false) : b58Decode str = none := by
  refine if_pos ?_
  simpa using h

section
variable {str : List Byte} (h : ∀ c ∈ str, inAlphabet c = true)
include h

theorem b58Decode_of_alphabet : b58Decode str =
    some (List.replicate (leadCount 0x31#8 str) 0x00#8 ++ minBe (ofDigits 58 (str.map alphabetDigit))) := by
  refine if_neg ?_
  simpa using h

theorem lt_of_mem_map_alphabetDigit : ∀ d ∈ str.map alphabetDigit, d < 58 := by
  intro d hd
  obtain ⟨c, hc, rfl⟩ := List.mem_map.mp hd
  exact alphabetDigit_lt (h c hc)

/-- R176. -/
theorem b58Decode_eq : b58Decode str = some ((rebase 58 256 (str.map alphabetDigit)).map (BitVec.ofNat 8)) := by
  rw [b58Decode_of_alphabet h, rebase, List.map_append, List.map_replicate, leadZeros_map alphabetDigit_eq_zero_iff]
  rfl

end

/-- R174. -/
theorem map_toNat_minBe (n : Nat) : (minBe n).map BitVec.toNat = digitsOf 256 n :=
  map_toNat_ofNat (lt_of_mem_digitsOf (by decide) n)

theorem head?_minBe_ne_zero (n : Nat) : (minBe n).head? ≠ some 0x00#8 := by
  intro hzero
  refine head?_digitsOf_ne_zero (base := 256) (by decide) n ?_
  rw [← map_toNat_minBe, List.head?_map, hzero]
  rfl

/-! ### The lengths of the outputs (R178, R181, R185) -/

/-- R178, R185: where the values of `n` bytes fit `n + extra` digits, so does the encoding of at most `n` bytes. -/
theorem length_b58Encode_le {n extra : Nat} (hpow : 256 ^ n ≤ 58 ^ (n + extra)) {bs : List Byte}
    (hlen : bs.length ≤ n) : (b58Encode bs).length ≤ n + extra := by
  rw [← List.length_map (f := BitVec.toNat)] at hlen
  have hpows : ∀ k ≤ (bs.map BitVec.toNat).length, 256 ^ k ≤ 58 ^ (k + extra) := fun k hk =>
    pow_le_pow_add_of_le (by decide) (by decide) hpow (Nat.le_trans hk hlen)
  rw [b58Encode_eq, List.length_map]
  exact Nat.le_trans (length_rebase_le (by decide) (by decide) lt_of_mem_map_toNat hpows)
    (Nat.add_le_add_right hlen extra)

/-- R181: the decoding is no longer than the string. -/
theorem length_b58Decode_le {str bs : List Byte} (h : ∀ c ∈ str, inAlphabet c = true)
    (hbs : b58Decode str = some bs) : bs.length ≤ str.length := by
  rw [b58Decode_eq h, Option.some_inj] at hbs
  have hrebase := length_rebase_le (base' := 256) (extra := 0) (by decide) (by decide) (lt_of_mem_map_alphabetDigit h)
    fun k _ => Nat.pow_le_pow_left (by decide) k
  rwa [← hbs, List.length_map, ← List.length_map (f := alphabetDigit)]

/-! ### The command function of B58_DEC (R181) -/

theorem b58DecFn_badChar {inb : List Byte} (h : b58Decode inb = none) : b58DecFn inb = .error .b58BadChar := by
  rw [b58DecFn, h]

theorem b58DecFn_of_b58Decode {inb bs : List Byte} (h : b58Decode inb = some bs) :
    b58DecFn inb = .ok bs 0x00000000#32 := by
  rw [b58DecFn, h]

/-! ### The double digest (R185) -/

theorem length_check4 (sha : List Byte → Vector Byte 32) (d : List Byte) : (check4 sha d).length = 4 := by
  simp [check4]

end Sys2Proof.Machine

namespace Sys2Proof.Proofs

open Sys2Proof.Machine

/-- Settles O54: on the digits, each of the two is the change of base that undoes the other. -/
theorem base58Bijection : Obligations.Base58Bijection := by
  refine ⟨fun bs => ?_, fun str h => ⟨_, b58Decode_eq h, ?_⟩⟩
  · rw [b58Decode_eq (inAlphabet_of_mem_b58Encode bs), map_alphabetDigit_b58Encode,
      rebase_rebase (by decide) (by decide) lt_of_mem_map_toNat, map_ofNat_toNat]
  · rw [b58Encode_eq, map_toNat_ofNat (lt_of_mem_rebase (by decide)),
      rebase_rebase (by decide) (by decide) (lt_of_mem_map_alphabetDigit h), map_alphabetChar_alphabetDigit h]

/-- Settles O52: the digits are those of the division loop. -/
theorem base58EncodingIsCanonical : Obligations.Base58EncodingIsCanonical := by
  have hb : 1 < 58 := by decide
  refine fun bs => ⟨digitsOf 58 (beValue bs), rfl, lt_of_mem_digitsOf hb _, head?_digitsOf_ne_zero hb _, ?_⟩
  rw [bigEndian_eq_ofDigits, bigEndian_eq_ofDigits, ofDigits_digitsOf hb, beValue]

/-- Settles O53: the bytes are the minimal ones of the digits' value. -/
theorem base58DecodingIsMinimal : Obligations.Base58DecodingIsMinimal := by
  refine fun str => ⟨b58Decode_of_foreign, fun h => ⟨_, b58Decode_of_alphabet h, head?_minBe_ne_zero _, ?_⟩⟩
  rw [map_toNat_minBe, bigEndian_eq_ofDigits, bigEndian_eq_ofDigits, ofDigits_digitsOf (by decide)]

/-- Settles O55: 175 digits of base 58 are enough for 128 bytes. -/
theorem b58EncFollowsItsRule : Obligations.B58EncFollowsItsRule := by
  refine ⟨rfl, fun s hin => ?_⟩
  have hlen : (b58Encode (input s)).length ≤ 128 + 47 :=
    length_b58Encode_le (by norm_num) (by rwa [length_input])
  exact ⟨hlen, succeeds_of_commandFn .b58Enc hin rfl (Nat.le_trans hlen (by decide))⟩

/-- Settles O56: the alphabet check, then the decoding, which is no longer than the input. -/
theorem b58DecFollowsItsRule : Obligations.B58DecFollowsItsRule := by
  refine ⟨rfl, fun s hin => ⟨fun hforeign => ?_, fun h => ?_⟩⟩
  · exact fails_of_commandFn .b58Dec hin (b58DecFn_badChar (b58Decode_of_foreign hforeign))
  · have hbs := b58Decode_eq h
    have hlen := length_b58Decode_le h hbs
    rw [length_input] at hlen
    exact ⟨_, hbs, hlen, succeeds_of_commandFn .b58Dec hin (b58DecFn_of_b58Decode hbs)
      (Nat.le_trans (Nat.le_trans hlen hin) (by decide))⟩

/-- Settles O57: 182 digits of base 58 are enough for version, 128 bytes of payload and the checksum. -/
theorem b58chkEncFollowsItsRule : Obligations.B58chkEncFollowsItsRule := by
  refine fun v => ⟨rfl, fun s hin => ?_⟩
  have hcheck := length_check4 Config.sha256 (v :: input s)
  have hlen : (b58Encode (withCheck Config.sha256 v (input s))).length ≤ 133 + 49 := by
    refine length_b58Encode_le (by norm_num) ?_
    rw [withCheck, List.length_append, hcheck, List.length_cons, length_input]
    omega
  refine ⟨hcheck, hlen, fun hv => ?_, succeeds_of_commandFn (.b58chkEnc v) hin rfl (Nat.le_trans hlen (by decide))⟩
  subst hv
  exact congrArg List.head? (b58Encode_zero_cons _)

/-- Settles O35 by going through the 58 digits and the 256 bytes. -/
theorem alphabetAndItsDigits : Obligations.AlphabetAndItsDigits :=
  ⟨fun d hd => ⟨inAlphabet_alphabetChar d hd, alphabetDigit_alphabetChar d hd⟩,
    fun _ hc => ⟨alphabetDigit_lt hc, alphabetChar_alphabetDigit hc⟩, inAlphabet_iff,
    fun _ _ => alphabetChar_strictMono, rfl⟩

end Sys2Proof.Proofs

/-! ## Proofs of the family 60_exceptions.md: an illegal word (R202), what an error writes (R203) and how long it stays
(R207), and which codes each command reports (R200, R201, R204) -/

namespace Sys2Proof.Machine

/-! ### What accesses leave of an outcome (R207) -/

/-- R31: what a read of OUT shows depends on OUTLEN and OUT's bytes only. -/
theorem outByte_congr {s t : State} (hlen : t.outlen = s.outlen)
    (hbyte : ∀ k, bufferByte t (outStart + k) = bufferByte s (outStart + k)) (k : Nat) : outByte t k = outByte s k := by
  rw [outByte, outByte, hlen, hbyte]

/-- R207: of the accesses that are served only the CMD write changes the outcome; IN's bytes stand below OUT's. -/
theorem sameOutcome_serve {a : Access} {s t : State} (h : serve a s = .next t)
    (hcmd : ∀ w, a ≠ .write 0x000#12 4 w) : Stated.SameOutcome t s := by
  obtain ⟨_, _, r, -, rfl⟩ | ⟨w, ha, -⟩ | ⟨w, -, rfl⟩ | ⟨i, w, hi, -, rfl⟩ := serve_effects h
  · exact ⟨rfl, rfl, rfl, rfl, rfl, outByte_congr rfl fun _ => bufferByte_served ..⟩
  · exact absurd ha (hcmd w)
  · exact ⟨rfl, rfl, rfl, rfl, rfl, outByte_congr rfl fun _ => bufferByte_writeInlen ..⟩
  · have hbelow := inStart_add_lt_outStart hi
    exact ⟨rfl, rfl, rfl, rfl, rfl, outByte_congr rfl fun k => bufferByte_writeIn_of_ne _ _ (by omega)⟩

/-! ### LENGTH (R201) -/

/-- R201: the three places that raise LENGTH, for a command with INLEN = n. -/
def RaisesLength (i : Instr) (n : Nat) : Prop :=
  128 < n ∨ (i = .b32Hrpexp ∧ n = 128) ∨ ∃ h, i = .b32Enc h ∧ n < h.toNat

theorem fails_of_raisesLength {i : Instr} {s : State} (h : RaisesLength i s.inlen.toNat) :
    Stated.Fails i s ErrCode.length.code := by
  by_cases hover : 128 < s.inlen.toNat
  · exact Proofs.overlongInlenEndsWithLength i s hover
  have hin := Nat.le_of_not_lt hover
  obtain hover' | ⟨rfl, hmax⟩ | ⟨n, rfl, hlt⟩ := h
  · exact absurd hover' hover
  · obtain ⟨-, hrule⟩ := Proofs.b32HrpexpFollowsItsRule
    exact (hrule s).2 hmax
  · exact fails_of_commandFn (.b32Enc n) hin (b32EncFn_length (by rwa [length_input]))

/-! ### The outputs that fit OUT (R201) -/

theorem length_of_b32EncFn {h : Nat} {inb out : List Byte} {r : Word} (hok : b32EncFn h inb = .ok out r) :
    out.length ≤ 90 := by
  obtain ⟨hrp, words, e, -, -, rfl⟩ := exists_fitsBech32_of_b32EncFn_ok hok
  rw [length_encodedString]
  exact e.fits

theorem length_of_b32DecFn {inb out : List Byte} {r : Word} (hok : b32DecFn inb = .ok out r) : out.length ≤ 83 := by
  obtain ⟨hrp, words, e, -, -, rfl, -⟩ := exists_fitsBech32_of_b32DecFn_ok hok
  exact e.length_output_le

theorem length_of_b32PolymodFn {inb out : List Byte} {r : Word} (hok : b32PolymodFn inb = .ok out r) :
    out.length = 0 := by
  unfold b32PolymodFn at hok
  split at hok
  · cases hok
  · obtain ⟨rfl, -⟩ := CmdResult.ok.inj hok
    rfl

/-- R153: the bytes are cut from the words' bits, strict or not. -/
theorem length_le_of_fromWordsOf {ws : List Word5} {bs : List Byte} {strict : Bool}
    (h : fromWordsOf ws strict = some bs) : bs.length ≤ ws.length := by
  obtain ⟨bs', tail, c, hfalse, htrue, hnone⟩ := exists_cutsInto_fromWordsOf ws
  obtain rfl : bs = bs' := by
    cases strict with
    | false => exact Option.some_inj.mp (h.symm.trans hfalse)
    | true =>
      by_cases htail : StrictTail tail
      · exact Option.some_inj.mp (h.symm.trans (htrue htail))
      · cases h.symm.trans (hnone htail)
  rw [c.length_bytes]
  omega

theorem length_of_fromWordsFn {strict : Bool} {inb out : List Byte} {r : Word}
    (hok : fromWordsFn strict inb = .ok out r) : out.length ≤ inb.length := by
  by_cases hw : Stated.AllWords inb
  · simp only [fromWordsFn, asWords_of_allWords hw] at hok
    split at hok
    next => cases hok
    next bs hbs =>
      obtain ⟨rfl, -⟩ := CmdResult.ok.inj hok
      exact (length_le_of_fromWordsOf hbs).trans_eq (length_wordsIn inb)
  · cases (fromWordsFn_badWord hw strict).symm.trans hok

theorem length_of_b58DecFn {inb out : List Byte} {r : Word} (hok : b58DecFn inb = .ok out r) :
    out.length ≤ inb.length := by
  by_cases h : ∀ c ∈ inb, inAlphabet c = true
  · have hbs := b58Decode_eq h
    obtain ⟨rfl, -⟩ := CmdResult.ok.inj ((b58DecFn_of_b58Decode hbs).symm.trans hok)
    exact length_b58Decode_le h hbs
  · have hforeign : ∃ c ∈ inb, inAlphabet c = false := by simpa using h
    cases (b58DecFn_badChar (b58Decode_of_foreign hforeign)).symm.trans hok

theorem length_withCheck (sha : List Byte → Vector Byte 32) (version : Byte) (payload : List Byte) :
    (withCheck sha version payload).length = payload.length + 5 := by
  rw [withCheck, List.length_append, length_check4, List.length_cons]

/-- R201: outside its three places no output is longer than OUT. -/
theorem length_of_commandFn {i : Instr} {inb out : List Byte} {r : Word} (h : ¬ RaisesLength i inb.length)
    (hok : commandFn i inb = .ok out r) : out.length ≤ Config.outSize := by
  have hin : inb.length ≤ 128 := Nat.le_of_not_lt fun hover => h (.inl hover)
  have hsize : Config.outSize = 256 := rfl
  cases i with
  | b32Enc n => exact Nat.le_trans (length_of_b32EncFn hok) (by decide)
  | b32Dec => exact Nat.le_trans (length_of_b32DecFn hok) (by decide)
  | b32Polymod => exact (length_of_b32PolymodFn hok).trans_le (by decide)
  | b32Hrpexp =>
    have hne : inb.length ≠ 128 := fun hmax => h (.inr (.inl ⟨rfl, hmax⟩))
    obtain ⟨rfl, -⟩ := CmdResult.ok.inj hok
    rw [List.length_map, length_hrpExpand]
    omega
  | toWords =>
    obtain ⟨rfl, -⟩ := CmdResult.ok.inj hok
    rw [List.length_map, length_toWordsOf]
    omega
  | fromWords strict =>
    have hlen := length_of_fromWordsFn hok
    omega
  | b58Enc =>
    obtain ⟨rfl, -⟩ := CmdResult.ok.inj hok
    exact Nat.le_trans (length_b58Encode_le (n := 128) (extra := 47) (by norm_num) hin) (by decide)
  | b58Dec =>
    have hlen := length_of_b58DecFn hok
    omega
  | b58chkEnc v =>
    obtain ⟨rfl, -⟩ := CmdResult.ok.inj hok
    have hlen : (withCheck Config.sha256 v inb).length ≤ 133 := by rw [length_withCheck]; omega
    exact Nat.le_trans (length_b58Encode_le (extra := 49) (by norm_num) hlen) (by decide)

/-! ### The errors of each command function (R200, R204) -/

/-- R200: the errors listed for each command, beside BAD_CMD and LENGTH. -/
def ownErrors : Instr → List ErrCode
  | .b32Enc _        => [.badChar, .emptyHrp, .tooLong, .badWord]
  | .b32Dec          => [.badChar, .mixedCase, .noSep, .emptyHrp, .shortData, .tooLong, .badDataChar, .badChecksum]
  | .b32Polymod      => [.badWord]
  | .fromWords true  => [.badWord, .badPadding]
  | .fromWords false => [.badWord]
  | .b58Dec          => [.b58BadChar]
  | .b32Hrpexp | .toWords | .b58Enc | .b58chkEnc _ => []

theorem length_notMem_codes_ownErrors (i : Instr) : ErrCode.length.code ∉ (ownErrors i).map ErrCode.code := by
  cases i with
  | fromWords strict => cases strict <;> decide
  | b32Enc _ | b58chkEnc _ => simp [ownErrors, ErrCode.code]
  | b32Dec | b32Polymod | b32Hrpexp | toWords | b58Enc | b58Dec => decide

theorem error_of_b32EncFn {h : BitVec 8} {inb : List Byte} {code : ErrCode} (hle : h.toNat ≤ inb.length)
    (herr : b32EncFn h.toNat inb = .error code) : code ∈ ownErrors (.b32Enc h) := by
  simp only [b32EncFn, if_neg (Nat.not_lt.mpr hle)] at herr
  split_ifs at herr
  · cases herr
    simp [ownErrors]
  · cases herr
    simp [ownErrors]
  · split at herr
    · cases herr
      simp [ownErrors]
    · split_ifs at herr
      cases herr
      simp [ownErrors]

theorem error_of_b32DecSplit {t : List Byte} {p : Nat} {code : ErrCode} (herr : b32DecSplit t p = .error code) :
    code ∈ ownErrors .b32Dec := by
  simp only [b32DecSplit] at herr
  split_ifs at herr
  all_goals cases herr
  all_goals decide

theorem error_of_b32DecFn {inb : List Byte} {code : ErrCode} (herr : b32DecFn inb = .error code) :
    code ∈ ownErrors .b32Dec := by
  simp only [b32DecFn] at herr
  split_ifs at herr
  · cases herr
    decide
  · cases herr
    decide
  · split at herr
    · cases herr
      decide
    · exact error_of_b32DecSplit herr

theorem error_of_b32PolymodFn {inb : List Byte} {code : ErrCode} (herr : b32PolymodFn inb = .error code) :
    code ∈ ownErrors .b32Polymod := by
  unfold b32PolymodFn at herr
  split at herr
  · cases herr
    decide
  · cases herr

/-- R154: the padding is checked in the strict mode only. -/
theorem error_of_fromWordsFn {strict : Bool} {inb : List Byte} {code : ErrCode}
    (herr : fromWordsFn strict inb = .error code) : code ∈ ownErrors (.fromWords strict) := by
  unfold fromWordsFn at herr
  split at herr
  next => cases herr; cases strict <;> decide
  next ws _ =>
    split at herr
    next hnone =>
      cases herr
      cases strict with
      | true => decide
      | false =>
        obtain ⟨bs, -, -, hsome, -⟩ := exists_cutsInto_fromWordsOf ws
        cases hnone.symm.trans hsome
    next => cases herr

theorem error_of_b58DecFn {inb : List Byte} {code : ErrCode} (herr : b58DecFn inb = .error code) :
    code ∈ ownErrors .b58Dec := by
  unfold b58DecFn at herr
  split at herr
  · cases herr
    decide
  · cases herr

theorem error_of_commandFn {i : Instr} {inb : List Byte} {code : ErrCode} (h : ¬ RaisesLength i inb.length)
    (herr : commandFn i inb = .error code) : code ∈ ownErrors i := by
  cases i with
  | b32Enc n =>
    exact error_of_b32EncFn (Nat.le_of_not_lt fun hlt => h (.inr (.inr ⟨n, rfl, hlt⟩))) herr
  | b32Dec => exact error_of_b32DecFn herr
  | b32Polymod => exact error_of_b32PolymodFn herr
  | fromWords strict => exact error_of_fromWordsFn herr
  | b58Dec => exact error_of_b58DecFn herr
  | b32Hrpexp | toWords | b58Enc | b58chkEnc _ => cases herr

/-- R201, R204: every code a command can end with: LENGTH in its three places, elsewhere none or one of its own. -/
theorem errcode_cases {i : Instr} {s t : State} (hexec : exec i s = .next t) :
    (RaisesLength i s.inlen.toNat ∧ t.errcode = ErrCode.length.code) ∨
    (¬ RaisesLength i s.inlen.toNat ∧
      (t.errcode = noErrorCode ∨ t.errcode ∈ (ownErrors i).map ErrCode.code)) := by
  by_cases h : RaisesLength i s.inlen.toNat
  · obtain ⟨t', ht', heffect⟩ := fails_of_raisesLength h
    cases hexec.symm.trans ht'
    exact .inl ⟨h, heffect.errcode⟩
  refine .inr ⟨h, ?_⟩
  have hin : s.inlen.toNat ≤ Config.inSize := Nat.le_of_not_lt fun hover => h (.inl hover)
  rw [← length_input] at h
  cases hf : commandFn i (input s) with
  | ok out r =>
    obtain ⟨t', ht', heffect⟩ := succeeds_of_commandFn i hin hf (length_of_commandFn h hf)
    cases hexec.symm.trans ht'
    exact .inl heffect.errcode
  | error code =>
    rw [errcode_of_commandFn i hin hf hexec]
    exact .inr (List.mem_map_of_mem (error_of_commandFn h hf))

end Sys2Proof.Machine

namespace Sys2Proof.Proofs

open Sys2Proof.Machine

/-- Settles O8: a word that is not legal decodes to no command. -/
theorem illegalWordEndsWithBadCmd : Obligations.IllegalWordEndsWithBadCmd := by
  intro s w rest hp hillegal
  have hnone : decode w = none := decode_eq_none_of_illegal (by simpa [legalWord_iff] using hillegal)
  refine ⟨_, ?_, errorEffect_finishError .badCmd _⟩
  rw [step_write_cmd hp, served_eq hp, writeCmd, hnone]

/-- Settles O20, by `sameOutcome_serve`. -/
theorem outcomeStaysUntilNextCommandOrReset : Obligations.OutcomeStaysUntilNextCommandOrReset := by
  intro s t inp rest hp hreset hcmd hstep
  rw [step_of_pending_cons hp] at hstep
  cases inp with
  | reset => exact absurd rfl hreset
  | access a => exact sameOutcome_serve hstep fun w ha => hcmd w (by rw [ha])

/-- Settles O28: ERR is set by the completion of R203 only. -/
theorem errorsArePreciseAndHideOutput : Obligations.ErrorsArePreciseAndHideOutput := by
  intro i s t hexec herr
  obtain ⟨out, v, -, -, rfl⟩ | ⟨code, rfl⟩ := exec_cases hexec
  · cases herr
  · have hstatus : statusWord true true = 0x00000003#32 := by decide
    exact ⟨rfl, congrArg some hstatus, outByte_finishError code s⟩

/-- Settles O30: elsewhere the code is 0x00 or one of the command's own, and LENGTH is none of these. -/
theorem lengthIsRaisedInExactlyThreePlaces : Obligations.LengthIsRaisedInExactlyThreePlaces := by
  intro i s t hexec
  obtain ⟨hraises, hlength⟩ | ⟨hnot, hcode⟩ := errcode_cases hexec
  · exact iff_of_true hlength hraises
  · refine iff_of_false (fun hlength => ?_) hnot
    rw [hlength] at hcode
    exact hcode.elim (by decide) (length_notMem_codes_ownErrors i)

/-- Settles O31: the command's own errors are those of R200's table. -/
theorem commandsReportOnlyTheirCodes : Obligations.CommandsReportOnlyTheirCodes := by
  intro i s t hexec
  obtain ⟨-, hlength⟩ | ⟨-, hnone | hown⟩ := errcode_cases hexec
  · exact .inl (by rw [hlength]; decide)
  · exact .inl (by rw [hnone]; decide)
  right
  cases i with
  | b32Enc _ | b32Dec => exact hown
  | fromWords strict =>
    cases strict with
    | true => exact hown
    | false => exact List.mem_singleton.mp hown
  | b32Polymod | b58Dec => exact List.mem_singleton.mp hown
  | b32Hrpexp | toWords | b58Enc | b58chkEnc _ => exact List.not_mem_nil hown

/-- Settles O16, by the step's first branch. -/
theorem idleBlockHoldsItsState : Obligations.IdleBlockHoldsItsState := fun _ => step_of_pending_nil

end Sys2Proof.Proofs

/-! ## Proof of the family 70_reset_and_hazards.md: what a reset leaves (R230, R232) -/

namespace Sys2Proof.Machine

/-- A reset at the head of the queue is the whole step (R230). -/
theorem step_reset {s : State} {rest : List Input} (hp : s.pending = .reset :: rest) :
    step s = .next (applyReset s) :=
  step_of_pending_cons hp

/-- R232: a reset leaves no byte written, so a buffer holds the draws of the new reset. -/
theorem bufferByte_applyReset (s : State) (a : Nat) :
    bufferByte (applyReset s) a = Config.unwrittenByte (s.resets + 1) a := by
  simp [bufferByte, Memory.get]

/-- R31: OUTLEN is 0 after a reset, so OUT reads as 0x00 everywhere. -/
theorem outByte_applyReset (s : State) (i : Nat) : outByte (applyReset s) i = 0x00#8 := by
  simp [outByte]

end Sys2Proof.Machine

namespace Sys2Proof.Proofs

open Sys2Proof.Machine

/-- Settles O18: the step is `applyReset`, which sets the registers, empties the memory and drops the reset itself from
the queue. -/
theorem resetInputLeavesTheResetValues : Obligations.ResetInputLeavesTheResetValues := by
  intro s rest hp
  have hpending : (applyReset s).pending = rest := by rw [applyReset_pending, hp, List.tail_cons]
  exact ⟨applyReset s, step_reset hp, applyReset_inlen s, applyReset_done s, applyReset_err s, applyReset_errcode s,
    applyReset_outlen s, applyReset_result s, hpending, applyReset_resets s,
    fun i _ => bufferByte_applyReset s (inStart + i), outByte_applyReset s⟩

end Sys2Proof.Proofs
